-- ==== Sys2Proof/Word.lean ====
section
/-! DEFINITION. The words, bytes and text of the machine, and the closed lists of names it uses: registers, flags, the
two kinds of placeholder (00_scope.md R11 to R14, 10_state.md R23, R28, R30, R34). -/

namespace Sys2Proof

/-- A 16-bit register value (10_state.md R23, R28, R29). -/
abbrev Word := BitVec 16

/-- A byte of data memory, or an 8-bit view of a register (20_memory.md R49, 10_state.md R24). -/
abbrev Byte := BitVec 8

/-- Program text, a line, a name or a description: a list of characters (00_scope.md R18). -/
abbrev Text := List Char

/-- The eight general registers, `GPR` in 00_scope.md R13. -/
inductive Gpr where
  | ax | bx | cx | dx | si | di | sp | bp
  deriving DecidableEq, Repr

/-- The four segment registers (10_state.md R28). -/
inductive Seg where
  | cs | ds | es | ss
  deriving DecidableEq, Repr

/-- `RegId`, the closed enumeration of the fourteen register names (00_scope.md R13). -/
inductive RegId where
  | gpr (r : Gpr)
  | seg (r : Seg)
  | ip
  | temp
  deriving DecidableEq, Repr

/-- A register operand of a MOVI, ADDR or SUBR micro-op: "GPR or TEMP" (30_encoding.md R80). -/
inductive GprOrTemp where
  | gpr (r : Gpr)
  | temp
  deriving DecidableEq, Repr

/-- The eight 8-bit views (10_state.md R24). -/
inductive View8 where
  | ah | al | bh | bl | ch | cl | dh | dl
  deriving DecidableEq, Repr

/-- The nine flags (10_state.md R34); `if_` is IF, whose own name is a word of Lean. -/
inductive Flag where
  | cf | pf | af | zf | sf | tf | if_ | df | of
  deriving DecidableEq, Repr

/-- The two kinds of placeholder (44_placeholders.md R125, R126). -/
inductive PlaceholderKind where
  | unimpl
  | malformed
  deriving DecidableEq, Repr

/-- The general registers in the document's listing order (10_state.md R30). -/
def Gpr.all : List Gpr := [.ax, .bx, .cx, .dx, .si, .di, .sp, .bp]

/-- The number of each register name (10_state.md R30): AX = 0 to BP = 7, CS = 8 to SS = 11, IP = 12, TEMP = 13. -/
def RegId.number : RegId → Nat
  | .gpr .ax => 0 | .gpr .bx => 1 | .gpr .cx => 2 | .gpr .dx => 3
  | .gpr .si => 4 | .gpr .di => 5 | .gpr .sp => 6 | .gpr .bp => 7
  | .seg .cs => 8 | .seg .ds => 9 | .seg .es => 10 | .seg .ss => 11
  | .ip => 12
  | .temp => 13

end Sys2Proof
end

