-- ==== Sys2Proof/Machine/Text.lean ====
section
/-! DEFINITION. Text: the primitives of 00_scope.md R18, the tokenizer of 30_encoding.md R70, the operand classes of R71
to R74, and the program text parser of R67. Everything is structural recursion on lists, so the kernel can run it. -/

namespace Sys2Proof.Machine

/-- Whitespace: space, tab, LF, VT, FF and CR (00_scope.md R18). -/
def isSpace (c : Char) : Bool :=
  c.toNat == 32 || (9 ≤ c.toNat && c.toNat ≤ 13)

/-- The LF character, which separates raw lines (30_encoding.md R66). -/
def lineFeed : Char := Char.ofNat 10

/-- `strip(s)`: without its leading and trailing whitespace (00_scope.md R18). -/
def strip (s : Text) : Text :=
  ((s.dropWhile isSpace).reverse.dropWhile isSpace).reverse

/-- One character of `upper`: `a` to `z` go to `A` to `Z`, every other character stays (00_scope.md R18). -/
def upperChar (c : Char) : Char :=
  if 97 ≤ c.toNat ∧ c.toNat ≤ 122 then Char.ofNat (c.toNat - 32) else c

/-- `upper(s)` (00_scope.md R18). -/
def upper (s : Text) : Text :=
  s.map upperChar

/-- `split(s, c)`: the pieces between the occurrences of `c`, empty pieces kept (00_scope.md R18). -/
def splitAt (c : Char) : Text → List Text
  | [] => [[]]
  | x :: xs =>
    if x = c then [] :: splitAt c xs
    else
      match splitAt c xs with
      | [] => [[x]]
      | p :: ps => (x :: p) :: ps

/-- `split_ws1(s)`: the head with no whitespace, and the stripped rest where there is one (00_scope.md R18). -/
def splitWs1 (s : Text) : Text × Option Text :=
  let rest := strip (s.dropWhile (fun c => !isSpace c))
  (s.takeWhile (fun c => !isSpace c), if rest = [] then none else some rest)

/-- `tokenize(L)`: the upper-cased mnemonic and the stripped operands (30_encoding.md R70). -/
def tokenize (line : Text) : Text × List Text :=
  match splitWs1 line with
  | (head, none) => (upper head, [])
  | (head, some rest) => (upper head, (splitAt ',' rest).map strip)

/-- The spelling of each general register (30_encoding.md R71). -/
def gprName : Gpr → Text
  | .ax => ['A', 'X']
  | .bx => ['B', 'X']
  | .cx => ['C', 'X']
  | .dx => ['D', 'X']
  | .si => ['S', 'I']
  | .di => ['D', 'I']
  | .sp => ['S', 'P']
  | .bp => ['B', 'P']

/-- A register operand: `upper(o)` is one of the eight names (30_encoding.md R71). -/
def regOperand (o : Text) : Option Gpr :=
  Gpr.all.find? (fun r => gprName r == upper o)

/-- The value of an ASCII decimal digit (30_encoding.md R72). -/
def decDigit (c : Char) : Option Nat :=
  if 48 ≤ c.toNat ∧ c.toNat ≤ 57 then some (c.toNat - 48) else none

/-- The value of a hexadecimal digit, in either case (30_encoding.md R73). -/
def hexDigit (c : Char) : Option Nat :=
  if 48 ≤ c.toNat ∧ c.toNat ≤ 57 then some (c.toNat - 48)
  else if 65 ≤ c.toNat ∧ c.toNat ≤ 70 then some (c.toNat - 55)
  else if 97 ≤ c.toNat ∧ c.toNat ≤ 102 then some (c.toNat - 87)
  else none

/-- The number the digits of `s` spell in base `b`, on top of what was read before (`acc`); none at the first character
that is no digit. -/
def digitsValue (b : Nat) (digit : Char → Option Nat) : Text → Nat → Option Nat
  | [], acc => some acc
  | c :: cs, acc =>
    match digit c with
    | none => none
    | some d => digitsValue b digit cs (acc * b + d)

/-- A decimal literal: one or more ASCII digits (30_encoding.md R72). -/
def decOperand (o : Text) : Option Nat :=
  if o = [] then none else digitsValue 10 decDigit o 0

/-- Without an optional `0x` or `0X` in front (30_encoding.md R73). -/
def dropHexMark (t : Text) : Text :=
  if t.take 2 = ['0', 'x'] ∨ t.take 2 = ['0', 'X'] then t.drop 2 else t

/-- A hexadecimal literal: an optional `0x` or `0X`, then one or more hexadecimal digits (30_encoding.md R73). -/
def hexOperand (t : Text) : Option Nat :=
  if dropHexMark t = [] then none else digitsValue 16 hexDigit (dropHexMark t) 0

/-- A bracketed operand's stripped inner text: first character `[`, last `]`, at least two (30_encoding.md R74). -/
def bracketInner (o : Text) : Option Text :=
  match o with
  | '[' :: rest => if rest.getLast? = some ']' then some (strip rest.dropLast) else none
  | _ => none

/-- A line the program store can hold: non-empty, stripped, with no LF (30_encoding.md R67). -/
def isStoredLine (line : Text) : Bool :=
  !line.isEmpty && strip line == line && !line.contains lineFeed

/-- The label table: names with the line index each marks (10_state.md R42). -/
abbrev LabelTable := List (Text × Nat)

/-- Declaring a label: a later declaration of a name replaces the earlier one (30_encoding.md R67). -/
def declareLabel (table : LabelTable) (name : Text) (index : Nat) : LabelTable :=
  table.filter (fun e => e.1 != name) ++ [(name, index)]

/-- One raw line of `parse` (30_encoding.md R67): blank lines take no slot; the first `:` ends a label, and what follows
it, stripped, takes a slot if it is not empty. -/
def parseRaw (store : List Text × LabelTable) (raw : Text) : List Text × LabelTable :=
  let t := strip raw
  if t = [] then store
  else if t.contains ':' then
    let name := strip (t.takeWhile (fun c => c != ':'))
    let rest := strip ((t.dropWhile (fun c => c != ':')).drop 1)
    (if rest = [] then store.1 else store.1 ++ [rest], declareLabel store.2 name store.1.length)
  else (store.1 ++ [t], store.2)

/-- `parse(text)`: the program store `(lines, labels)` of a program text (30_encoding.md R67). -/
def parseProgram (code : Text) : List Text × LabelTable :=
  (splitAt lineFeed code).foldl parseRaw ([], [])

end Sys2Proof.Machine
end

