-- ==== Sys2Proof/Machine/Forms.lean ====
section
/-! DEFINITION. The operand classes as tests (30_encoding.md R71 to R74), the mnemonics (00_scope.md R2), and which lines fit
a form (R84) or are MALFORMED (R79). Written from the opcode table's "match" column and R79, not from the decoder's order of
tests. -/

namespace Sys2Proof

open Sys2Proof.Machine

/-- The mnemonics of 00_scope.md R2 as text. -/
def mnMOV : Text := ['M', 'O', 'V']
def mnADD : Text := ['A', 'D', 'D']
def mnSUB : Text := ['S', 'U', 'B']
def mnCMP : Text := ['C', 'M', 'P']
def mnMUL : Text := ['M', 'U', 'L']
def mnDIV : Text := ['D', 'I', 'V']
def mnJMP : Text := ['J', 'M', 'P']
def mnJZ : Text := ['J', 'Z']
def mnJNZ : Text := ['J', 'N', 'Z']

/-- A register operand (30_encoding.md R71). -/
def isReg (o : Text) : Bool := (regOperand o).isSome

/-- A decimal literal (30_encoding.md R72). -/
def isDec (o : Text) : Bool := (decOperand o).isSome

/-- A hexadecimal literal (30_encoding.md R73). -/
def isHex (o : Text) : Bool := (hexOperand o).isSome

/-- A memory operand: bracketed, with a hexadecimal literal inside (30_encoding.md R74). -/
def isMem (o : Text) : Bool := ((bracketInner o).bind hexOperand).isSome

/-- A bracketed operand whose inner text is no hexadecimal literal (30_encoding.md R74). -/
def isBadMem (o : Text) : Bool := (bracketInner o).isSome && !isMem o

/-- A line that fits one of the forms F01 to F14: the "match" column of opcode_table.json, row by row. -/
def fitsForm (line : Text) : Bool :=
  match tokenize line with
  | (mn, [o1, o2]) =>
    (mn == mnMOV && ((isReg o1 && isDec o2) || (isReg o1 && isReg o2) || (isReg o1 && isMem o2) || (isMem o1 && isReg o2)))
      || (mn == mnADD && isReg o1 && (isReg o2 || isDec o2))
      || (mn == mnSUB && isReg o1 && (isReg o2 || isDec o2))
      || (mn == mnCMP && isReg o1 && isReg o2)
  | (mn, [o]) =>
    ((mn == mnMUL || mn == mnDIV) && isReg o) || ((mn == mnJMP || mn == mnJZ || mn == mnJNZ) && isHex o)
  | _ => false

/-- The three cases of 30_encoding.md R79 that are MALFORMED: bad bracket contents in a position MOV would otherwise
accept, and a jump operand that is no hexadecimal literal. -/
def fitsMalformed (line : Text) : Bool :=
  match tokenize line with
  | (mn, [o1, o2]) => mn == mnMOV && ((isReg o1 && isBadMem o2) || (isBadMem o1 && isReg o2))
  | (mn, [o]) => (mn == mnJMP || mn == mnJZ || mn == mnJNZ) && !isHex o
  | _ => false

/-- The placeholder kind R79 gives a line that fits no form. -/
def placeholderKind (line : Text) : PlaceholderKind :=
  if fitsMalformed line then .malformed else .unimpl

end Sys2Proof
end

