-- ==== Sys2Proof/Syntax.lean ====
section
/-! DEFINITION. The instructions: one constructor for each row of opcode_table.json, in the table's order (forms F01 to
F15 of 30_encoding.md R84). Register operands are already resolved; literals keep their full value, which is reduced where
it is used (R85). -/

namespace Sys2Proof

/-- The fourteen instruction forms and the placeholder every other line decodes to. `n` is a decimal literal, `a` a
hexadecimal address, `t` a hexadecimal line index, each a natural number of any size (30_encoding.md R72, R73). -/
inductive Instr where
  /-- F01 `MOV d, n` (R106). -/
  | movRI (d : Gpr) (n : Nat)
  /-- F02 `MOV d, s` (R107). -/
  | movRR (d s : Gpr)
  /-- F03 `MOV d, [a]` (R108). -/
  | movRM (d : Gpr) (a : Nat)
  /-- F04 `MOV [a], s` (R109). -/
  | movMR (a : Nat) (s : Gpr)
  /-- F05 `ADD d, s` (R113). -/
  | addRR (d s : Gpr)
  /-- F06 `ADD d, n` (R114). -/
  | addRI (d : Gpr) (n : Nat)
  /-- F07 `SUB d, s` (R115). -/
  | subRR (d s : Gpr)
  /-- F08 `SUB d, n` (R116). -/
  | subRI (d : Gpr) (n : Nat)
  /-- F09 `CMP p, q` (R117). -/
  | cmpRR (p q : Gpr)
  /-- F10 `MUL s` (R118). -/
  | mulR (s : Gpr)
  /-- F11 `DIV s` (R119). -/
  | divR (s : Gpr)
  /-- F12 `JMP t` (R121). -/
  | jmpH (t : Nat)
  /-- F13 `JZ t` (R122). -/
  | jzH (t : Nat)
  /-- F14 `JNZ t` (R123). -/
  | jnzH (t : Nat)
  /-- F15, any other line: UNIMPL (R125) or MALFORMED (R126), with the stored line it came from. -/
  | placeholder (kind : PlaceholderKind) (line : Text)
  deriving DecidableEq, Repr

end Sys2Proof
end

