-- ==== Sys2Proof/WellFormed.lean ====
section
/-! DEFINITION. Which instruction terms stand for a line of the program store. The fourteen forms always do: their operands
are general registers and natural numbers of any size (30_encoding.md R71 to R73). A placeholder does when its line is a
stored line (R67) that fits no form (R84) and is of the kind that R79 gives that line. -/

namespace Sys2Proof

open Sys2Proof.Machine

/-- The check on an instruction term. Only a placeholder can be ill-formed: its line is no stored line, or fits a form, or
has the other kind. -/
def Instr.wellFormed : Instr → Bool
  | .placeholder kind line => isStoredLine line && !fitsForm line && kind == placeholderKind line
  | .movRI .. | .movRR .. | .movRM .. | .movMR .. | .addRR .. | .addRI .. | .subRR .. | .subRI .. | .cmpRR ..
  | .mulR .. | .divR .. | .jmpH .. | .jzH .. | .jnzH .. => true

end Sys2Proof
end

