-- ==== Sys2Proof/Decode.lean ====
section
/-! DEFINITION. The decoder (30_encoding.md R75 to R79) and, after it, the encoder, written from the form table R84. An
instruction is a line of text; the word of the opcode table's numbering is that text, eight bits a character (log 20). -/

namespace Sys2Proof

open Sys2Proof.Machine

/-- The line with no meaning, kept with its kind (30_encoding.md R79). -/
def asUnimpl (line : Text) : Instr := .placeholder .unimpl line

/-- The line with a malformed operand, kept with its kind (30_encoding.md R79). -/
def asMalformed (line : Text) : Instr := .placeholder .malformed line

/-- MOV from a register: to a register, or to memory (30_encoding.md R76, the `isReg(s)` branch). -/
def decodeMovFromReg (line d : Text) (src : Gpr) : Instr :=
  match regOperand d with
  | some dst => .movRR dst src
  | none =>
    match bracketInner d with
    | none => asUnimpl line
    | some inner =>
      match hexOperand inner with
      | some a => .movMR a src
      | none => asMalformed line

/-- MOV from a bracketed operand (30_encoding.md R76, the `isBracketed(s)` branch). -/
def decodeMovFromMem (line d inner : Text) : Instr :=
  match regOperand d with
  | none => asUnimpl line
  | some dst =>
    match hexOperand inner with
    | some a => .movRM dst a
    | none => asMalformed line

/-- `decode_mov(d, s)`: decimal source, then register source, then bracketed source (30_encoding.md R76). -/
def decodeMov (line d s : Text) : Instr :=
  match decOperand s with
  | some n =>
    match regOperand d with
    | some dst => .movRI dst n
    | none => asUnimpl line
  | none =>
    match regOperand s with
    | some src => decodeMovFromReg line d src
    | none =>
      match bracketInner s with
      | some inner => decodeMovFromMem line d inner
      | none => asUnimpl line

/-- `decode_arith(K, d, s)`, with the register form and the immediate form of `K` (30_encoding.md R77). -/
def decodeArith (line : Text) (regForm : Gpr → Gpr → Instr) (immForm : Gpr → Nat → Instr) (d s : Text) : Instr :=
  match regOperand d with
  | none => asUnimpl line
  | some dst =>
    match regOperand s with
    | some src => regForm dst src
    | none =>
      match decOperand s with
      | some n => immForm dst n
      | none => asUnimpl line

/-- CMP: two register operands (30_encoding.md R75). -/
def decodeCmp (line p q : Text) : Instr :=
  match regOperand p with
  | none => asUnimpl line
  | some a =>
    match regOperand q with
    | some b => .cmpRR a b
    | none => asUnimpl line

/-- MUL and DIV: one register operand (30_encoding.md R75). -/
def decodeUnary (line : Text) (form : Gpr → Instr) (o : Text) : Instr :=
  match regOperand o with
  | some r => form r
  | none => asUnimpl line

/-- `decode_jump(J, ops)` once the operand count is right (30_encoding.md R78). -/
def decodeJump (line : Text) (form : Nat → Instr) (o : Text) : Instr :=
  match hexOperand o with
  | some t => form t
  | none => asMalformed line

/-- The dispatch on two operands (30_encoding.md R75). -/
def decodeTwo (line mn o1 o2 : Text) : Instr :=
  if mn = mnMOV then decodeMov line o1 o2
  else if mn = mnADD then decodeArith line .addRR .addRI o1 o2
  else if mn = mnSUB then decodeArith line .subRR .subRI o1 o2
  else if mn = mnCMP then decodeCmp line o1 o2
  else asUnimpl line

/-- The dispatch on one operand (30_encoding.md R75). -/
def decodeOne (line mn o : Text) : Instr :=
  if mn = mnMUL then decodeUnary line .mulR o
  else if mn = mnDIV then decodeUnary line .divR o
  else if mn = mnJMP then decodeJump line .jmpH o
  else if mn = mnJZ then decodeJump line .jzH o
  else if mn = mnJNZ then decodeJump line .jnzH o
  else asUnimpl line

/-- `decode(L)`: total and a function of the line alone. A line no form fits comes back as a placeholder that names its
kind (30_encoding.md R75, R79, R86). -/
def decode (line : Text) : Instr :=
  match tokenize line with
  | (mn, [o]) => decodeOne line mn o
  | (mn, [o1, o2]) => decodeTwo line mn o1 o2
  | _ => asUnimpl line

/-- The text whose characters are the bytes of `w`, the first character in bits 7 to 0 (log 20). -/
def textOfWord : Nat → Nat → Text
  | 0, _ => []
  | k + 1, w => Char.ofNat (w % 256) :: textOfWord k (w / 256)

/-- The decoder on a word numbered as the opcode table numbers words: the line is its `nbits / 8` characters. A text that
the program store cannot hold is refused (30_encoding.md R67). -/
def decodeTableWord (nbits w : Nat) : Option Instr :=
  let line := textOfWord (nbits / 8) w
  if isStoredLine line then some (decode line) else none

/-- The character of a digit below 16, letters in upper case. -/
def digitChar (d : Nat) : Char :=
  if d < 10 then Char.ofNat (48 + d) else Char.ofNat (55 + d)

/-- The digits of `n` in base `b` in front of `acc`; `fuel` bounds how many there can be. -/
def digitsOf (b : Nat) : Nat → Nat → Text → Text
  | 0, _, acc => acc
  | fuel + 1, n, acc =>
    if n < b then digitChar n :: acc else digitsOf b fuel (n / b) (digitChar (n % b) :: acc)

/-- A decimal literal (30_encoding.md R72). -/
def decText (n : Nat) : Text := digitsOf 10 (n + 1) n []

/-- A hexadecimal literal with no mark in front (30_encoding.md R73). -/
def hexText (n : Nat) : Text := digitsOf 16 (n + 1) n []

/-- A memory operand (30_encoding.md R74). -/
def memText (a : Nat) : Text := '[' :: (hexText a ++ [']'])

/-- A mnemonic and one operand (30_encoding.md R83, formats R and H). -/
def lineOne (mn o : Text) : Text := mn ++ ' ' :: o

/-- A mnemonic and two operands (30_encoding.md R83, formats RD, RR, RM and MR). -/
def lineTwo (mn o1 o2 : Text) : Text := mn ++ ' ' :: (o1 ++ ',' :: ' ' :: o2)

/-- The line of an instruction, spelled as the form table R84 does; a placeholder is its own line. -/
def encode : Instr → Text
  | .movRI d n => lineTwo mnMOV (gprName d) (decText n)
  | .movRR d s => lineTwo mnMOV (gprName d) (gprName s)
  | .movRM d a => lineTwo mnMOV (gprName d) (memText a)
  | .movMR a s => lineTwo mnMOV (memText a) (gprName s)
  | .addRR d s => lineTwo mnADD (gprName d) (gprName s)
  | .addRI d n => lineTwo mnADD (gprName d) (decText n)
  | .subRR d s => lineTwo mnSUB (gprName d) (gprName s)
  | .subRI d n => lineTwo mnSUB (gprName d) (decText n)
  | .cmpRR p q => lineTwo mnCMP (gprName p) (gprName q)
  | .mulR s => lineOne mnMUL (gprName s)
  | .divR s => lineOne mnDIV (gprName s)
  | .jmpH t => lineOne mnJMP (hexText t)
  | .jzH t => lineOne mnJZ (hexText t)
  | .jnzH t => lineOne mnJNZ (hexText t)
  | .placeholder _ line => line

/-- The word of a text, the first character in bits 7 to 0: the inverse of `textOfWord` for eight-bit characters (log 20). -/
def wordOfText : Text → Nat
  | [] => 0
  | c :: cs => c.toNat % 256 + 256 * wordOfText cs

/-- How many bits the encoding of an instruction has. -/
def encodedBits (i : Instr) : Nat := 8 * (encode i).length

/-- The encoding of an instruction as one word. -/
def encodedWord (i : Instr) : Nat := wordOfText (encode i)

end Sys2Proof
end

