-- ==== Sys2Proof/Machine/MicroOp.lean ====
section
/-! DEFINITION. The micro-op, the internal encoding the sequencer executes (30_encoding.md R80), its tag and the
placeholder query (44_placeholders.md R128). -/

namespace Sys2Proof.Machine

/-- The tagged variant of 30_encoding.md R80, in the order of its tags 0 to 13. -/
inductive MicroOp where
  | movi (dst : GprOrTemp) (imm : Word)
  | movr (dst src : Gpr)
  | load (dst : Gpr) (addr : Nat)
  | store (addr : Nat) (src : Gpr)
  | addr (dst : Gpr) (src : GprOrTemp)
  | subr (dst : Gpr) (src : GprOrTemp)
  | cmpr (a b : Gpr)
  | mul (src : Gpr)
  | div (src : Gpr)
  | jmp (target : Nat)
  | jz (target : Nat)
  | jnz (target : Nat)
  | unimpl (line : Text)
  | malformed (msg : Text)
  deriving DecidableEq, Repr

/-- The tag numbers of 30_encoding.md R80. -/
def MicroOp.tag : MicroOp → Nat
  | .movi .. => 0
  | .movr .. => 1
  | .load .. => 2
  | .store .. => 3
  | .addr .. => 4
  | .subr .. => 5
  | .cmpr .. => 6
  | .mul .. => 7
  | .div .. => 8
  | .jmp .. => 9
  | .jz .. => 10
  | .jnz .. => 11
  | .unimpl .. => 12
  | .malformed .. => 13

/-- `is_placeholder(u)`, the query of 44_placeholders.md R128: the tag is 12 or 13. -/
def MicroOp.isPlaceholder (u : MicroOp) : Bool :=
  u.tag == 12 || u.tag == 13

end Sys2Proof.Machine
end

