-- ==== Sys2Proof/Config.lean ====
section
/-! DEFINITION. What is fixed for the machine: the numeric parameters of 00_scope.md R9 (log 23), the open parameter
IP_WRAP16 (R10, log 1), and the values the spec leaves unspecified, as constants with no body (logs 14, 15, 17, 29). -/

namespace Sys2Proof.Config

/-- Data memory size: 2^20 bytes (00_scope.md R9); addresses are reduced modulo it (20_memory.md R50). -/
abbrev memSize : Nat := 1048576

/-- The value SP holds at reset (00_scope.md R9, 10_state.md R48). -/
abbrev spReset : Word := 0xFFFE#16

/-- How many bytes of memory the snapshot shows (00_scope.md R9, 40_sequencer.md R103). -/
abbrev snapshotBytes : Nat := 256

/-- Width in bytes of every memory access an instruction makes (00_scope.md R15, 20_memory.md R56). -/
abbrev accessBytes : Nat := 2

/-- The number of values a 16-bit register holds: the modulus of every register write (10_state.md R25). -/
abbrev wordModulus : Nat := 65536

/-- IP_WRAP16, the OPEN parameter of 00_scope.md R10: whether a write to IP is reduced mod 2^16. No body: every statement
holds for both settings (log 1). -/
opaque ipWrap16 : Bool

/-- Free values, one Boolean per draw: which of the two values an introspection field holds after a fault
(40_sequencer.md R98, log 14), and `running` after a `run` that faulted (10_state.md R39, log 15). -/
opaque freeBool : Nat → Bool

/-- The text `msg` of a MALFORMED placeholder, unspecified; a function of the line because `decode` is one
(30_encoding.md R75, R82, log 17). -/
opaque malformedMessage : Text → Text

/-- The error messages the host receives with its faults, unspecified, by the draw count of the state a fault leaves
(40_sequencer.md R93, 60_exceptions.md R129, log 29). -/
opaque faultMessage : Nat → Text

/-- The description of every micro-op but the two placeholders, unspecified (30_encoding.md R82, log 17). -/
opaque microOpDescription : Machine.MicroOp → Text

end Sys2Proof.Config
end

