-- ==== Sys2Proof/Machine/State.lean ====
section
/-! DEFINITION. The state as plain data: everything 10_state.md R46 lists, and the model's own count of free values drawn
(log 18). Reset is 10_state.md R48. Also the reasons a step can stop. -/

namespace Sys2Proof.Machine

/-- The eight general registers (10_state.md R23). -/
structure GprFile where
  ax : Word
  bx : Word
  cx : Word
  dx : Word
  si : Word
  di : Word
  sp : Word
  bp : Word
  deriving DecidableEq, Repr

/-- The four segment registers (10_state.md R28). -/
structure SegFile where
  cs : Word
  ds : Word
  es : Word
  ss : Word
  deriving DecidableEq, Repr

/-- The nine flags (10_state.md R34). -/
structure Flags where
  cf : Bool
  pf : Bool
  af : Bool
  zf : Bool
  sf : Bool
  tf : Bool
  if_ : Bool
  df : Bool
  of : Bool
  deriving DecidableEq, Repr

/-- Data memory (10_state.md R45): the bytes that are not zero, by rising address. An unlisted address reads 0, the reset
contents. -/
abbrev Memory := List Host.Cell

/-- The canonical form from `low` upwards: addresses rise, stay below the memory size, and no listed byte is zero. -/
def Memory.wfFrom (low : Nat) : Memory → Bool
  | [] => true
  | (a, b) :: rest => decide (low ≤ a) && decide (a < Config.memSize) && (b != 0#8) && Memory.wfFrom (a + 1) rest

/-- The canonical form of a memory. -/
def Memory.wf (m : Memory) : Bool := Memory.wfFrom 0 m

/-- `CoreState` (10_state.md R46). -/
structure State where
  /-- AX to BP (R23). -/
  gprs : GprFile
  /-- CS, DS, ES, SS (R28). -/
  segs : SegFile
  /-- IP, an index into `lines` (R31). -/
  ip : Nat
  /-- TEMP, the scratch register (R29, log 16). -/
  temp : Word
  /-- The nine flags (R34). -/
  flags : Flags
  /-- Data memory (R45). -/
  mem : Memory
  /-- The program store's lines (R42). -/
  lines : List Text
  /-- The program store's label table, write-only (R43, log 10). -/
  labels : LabelTable
  /-- The engine has halted (R38). -/
  halted : Bool
  /-- A run is in progress (R39). -/
  running : Bool
  /-- The last fetched line (R40). -/
  currentInstruction : Option Text
  /-- The lowering of the most recent step (R41). -/
  lastMicroinstructions : List MicroOp
  /-- THE MODEL'S OWN: how many free values have been drawn (log 18). -/
  draws : Nat
  deriving DecidableEq, Repr

/-- The state right after `reset()` (10_state.md R48); `draws` is the model's own and starts at 0 (log 18). -/
def State.reset : State where
  gprs :=
    { ax := 0#16, bx := 0#16, cx := 0#16, dx := 0#16, si := 0#16, di := 0#16, sp := Config.spReset, bp := 0#16 }
  segs := { cs := 0#16, ds := 0#16, es := 0#16, ss := 0#16 }
  ip := 0
  temp := 0#16
  flags :=
    { cf := false, pf := false, af := false, zf := false, sf := false, tf := false, if_ := false, df := false, of := false }
  mem := []
  lines := []
  labels := []
  halted := false
  running := false
  currentInstruction := none
  lastMicroinstructions := []
  draws := 0

/-- The faults (60_exceptions.md R129): one. -/
inductive Fault where
  /-- Raised by DIV when its divisor register holds 0 (R130), and by nothing else. `left` is the state the fault leaves
  (R132): the machine can be stepped again from it. SAFE: the spec reports this fault to the host (log 22). -/
  | divideByZero (left : State)
  deriving DecidableEq, Repr

/-- Why a step has no meaning. -/
inductive Refusal where
  /-- Raised by an arm of `exec` for an instruction that has no meaning yet; no arm does now. SAFE: the model stops where
  the hardware goes on. -/
  | notModelled (mnemonic : String)
  deriving DecidableEq, Repr

/-- What a step or a meaning answers. -/
abbrev Result := Host.Outcome State Fault Refusal

end Sys2Proof.Machine
end

