-- ==== Sys2Proof/Machine/Ops.lean ====
section
/-! DEFINITION. The named operations on memory, registers and IP, the fault, and the order of two actions. Every read and
write of a register or of memory goes through here. -/

namespace Sys2Proof.Machine

/-! ### Memory -/

/-- `M[a]`: the byte at address `a`, 0 where nothing is listed (10_state.md R45, 20_memory.md R61). -/
def Memory.read : Memory → Nat → Byte
  | [], _ => 0#8
  | (k, v) :: rest, a => if k = a then v else Memory.read rest a

/-- A byte in front of a memory, left out when it is the value an unlisted address reads as. -/
def Memory.cons (a : Nat) (b : Byte) (m : Memory) : Memory :=
  if b = 0#8 then m else (a, b) :: m

/-- `M[a] <- b`, keeping the canonical form. -/
def Memory.write : Memory → Nat → Byte → Memory
  | [], a, b => Memory.cons a b []
  | (k, v) :: rest, a, b =>
    if a < k then Memory.cons a b ((k, v) :: rest)
    else if a = k then Memory.cons a b rest
    else (k, v) :: Memory.write rest a b

/-- A physical address: reduced mod 2^20 (20_memory.md R50). -/
def physAddr (addr : Nat) : Nat := addr % Config.memSize

/-- `MemRead(addr, n)`, little-endian, every byte's address masked on its own (20_memory.md R51, R55, log 2). -/
def memRead (m : Memory) (addr : Nat) : Nat → Nat
  | 0 => 0
  | n + 1 => (m.read (physAddr addr)).toNat + 256 * memRead m (addr + 1) n

/-- `MemWrite(addr, n, v)`, least significant byte first (20_memory.md R52, R55, log 2). -/
def memWrite (m : Memory) (addr : Nat) : Nat → Nat → Memory
  | 0, _ => m
  | n + 1, v => memWrite (m.write (physAddr addr) (BitVec.ofNat 8 v)) (addr + 1) n (v / 256)

/-! ### Registers -/

/-- Reading a general register (10_state.md R26). -/
def GprFile.get (g : GprFile) : Gpr → Word
  | .ax => g.ax
  | .bx => g.bx
  | .cx => g.cx
  | .dx => g.dx
  | .si => g.si
  | .di => g.di
  | .sp => g.sp
  | .bp => g.bp

/-- Writing a general register (10_state.md R25). -/
def GprFile.set (g : GprFile) (r : Gpr) (v : Word) : GprFile :=
  match r with
  | .ax => { g with ax := v }
  | .bx => { g with bx := v }
  | .cx => { g with cx := v }
  | .dx => { g with dx := v }
  | .si => { g with si := v }
  | .di => { g with di := v }
  | .sp => { g with sp := v }
  | .bp => { g with bp := v }

/-- Reading a segment register (10_state.md R28). -/
def SegFile.get (g : SegFile) : Seg → Word
  | .cs => g.cs
  | .ds => g.ds
  | .es => g.es
  | .ss => g.ss

/-- Writing a segment register; no instruction does (10_state.md R25, R28). -/
def SegFile.set (g : SegFile) (r : Seg) (v : Word) : SegFile :=
  match r with
  | .cs => { g with cs := v }
  | .ds => { g with ds := v }
  | .es => { g with es := v }
  | .ss => { g with ss := v }

/-- Reading a flag by name (00_scope.md R14). -/
def Flags.get (f : Flags) : Flag → Bool
  | .cf => f.cf
  | .pf => f.pf
  | .af => f.af
  | .zf => f.zf
  | .sf => f.sf
  | .tf => f.tf
  | .if_ => f.if_
  | .df => f.df
  | .of => f.of

/-- `x[r]` for a general register. -/
def State.readGpr (s : State) (r : Gpr) : Word := s.gprs.get r

/-- `x[r] <- v` for a general register. -/
def State.writeGpr (s : State) (r : Gpr) (v : Word) : State := { s with gprs := s.gprs.set r v }

/-- `ipw(v)`: `v mod 2^16` when IP_WRAP16 holds, and `v` otherwise (00_scope.md R10). A value below 2^16 is the same under
both settings, so it is tested first, and the parameter is looked at only where it matters (log 1). -/
def ipw (v : Nat) : Nat :=
  if v < Config.wordModulus then v else if Config.ipWrap16 then v % Config.wordModulus else v

/-- `pc <- v`: a write to IP stores `ipw(v)` (00_scope.md R13). -/
def State.writeIp (s : State) (v : Nat) : State := { s with ip := ipw v }

/-- `x[r]` for every register name (00_scope.md R13, 10_state.md R26). -/
def State.readReg (s : State) : RegId → Nat
  | .gpr r => (s.readGpr r).toNat
  | .seg r => (s.segs.get r).toNat
  | .ip => s.ip
  | .temp => s.temp.toNat

/-- `x[r] <- v` for every register name: `v mod 2^16`, and `ipw(v)` for IP (00_scope.md R13, 10_state.md R25). -/
def State.writeReg (s : State) (r : RegId) (v : Nat) : State :=
  match r with
  | .gpr g => s.writeGpr g (BitVec.ofNat 16 v)
  | .seg g => { s with segs := s.segs.set g (BitVec.ofNat 16 v) }
  | .ip => s.writeIp v
  | .temp => { s with temp := BitVec.ofNat 16 v }

/-- The 8-bit views, derived and not stored (10_state.md R24). -/
def State.readView (s : State) : View8 → Byte
  | .ah => (s.readGpr .ax).extractLsb' 8 8
  | .al => (s.readGpr .ax).extractLsb' 0 8
  | .bh => (s.readGpr .bx).extractLsb' 8 8
  | .bl => (s.readGpr .bx).extractLsb' 0 8
  | .ch => (s.readGpr .cx).extractLsb' 8 8
  | .cl => (s.readGpr .cx).extractLsb' 0 8
  | .dh => (s.readGpr .dx).extractLsb' 8 8
  | .dl => (s.readGpr .dx).extractLsb' 0 8

/-! ### Faults and order -/

/-- Raising DivideByZero: the micro-op ends, nothing is saved, no handler is entered, and the state stands as it was at the
point of failure (00_scope.md R16, 60_exceptions.md R132, R133). There is no return from it beside this one: no instruction
returns, and the machine is stepped again from the state left (R134). -/
def raiseDivideByZero (s : State) : Result := .fault (.divideByZero s)

/-- One action and then the next, which sees what the first one left; a fault skips the rest (40_sequencer.md R96). -/
def andThen (first : Result) (rest : State → Result) : Result :=
  match first with
  | .next s => rest s
  | .fault r => .fault r
  | .refused r => .refused r

/-- The free Boolean `k` draws on; whoever reads it counts it in `draws` (log 18). -/
def State.freeBit (s : State) (k : Nat) : Bool := Config.freeBool (s.draws + k)

end Sys2Proof.Machine
end

