-- ==== Sys2Proof/Machine/Operands.lean ====
section
/-! DEFINITION. The operand forms: how each kind of operand is read when its micro-op is applied (30_encoding.md R85). -/

namespace Sys2Proof.Machine

/-- A decimal immediate, reduced mod 2^16 with no sign extension (30_encoding.md R72, R85). -/
def immediate (n : Nat) : Word := BitVec.ofNat 16 n

/-- A register source that may be TEMP (30_encoding.md R80). -/
def State.readSource (s : State) : GprOrTemp → Word
  | .gpr r => s.readGpr r
  | .temp => s.temp

/-- A register destination that may be TEMP (30_encoding.md R80). -/
def State.writeDest (s : State) (d : GprOrTemp) (v : Word) : State :=
  match d with
  | .gpr r => s.writeGpr r v
  | .temp => { s with temp := v }

/-- A direct memory operand read: `MemRead(a, 2)` (30_encoding.md R74, 20_memory.md R51, R56). -/
def State.readDirect (s : State) (a : Nat) : Word :=
  BitVec.ofNat 16 (memRead s.mem a Config.accessBytes)

/-- A direct memory operand written: `MemWrite(a, 2, v)` (30_encoding.md R74, 20_memory.md R52, R56). -/
def State.writeDirect (s : State) (a : Nat) (v : Word) : State :=
  { s with mem := memWrite s.mem a Config.accessBytes v.toNat }

/-- A jump target: a line index, written to IP whole (30_encoding.md R78, R85). -/
def State.jumpTo (s : State) (t : Nat) : State := s.writeIp t

end Sys2Proof.Machine
end

