-- ==== Sys2Proof/Machine/DataTransfer.lean ====
section
/-! DEFINITION. MOV: the micro-ops MOVI, MOVR, LOAD and STORE and the meanings of forms F01 to F04
(41_data_transfer.md R106 to R109). -/

namespace Sys2Proof.Machine

/-- MOVI (41_data_transfer.md R106). -/
def microMovi (dst : GprOrTemp) (imm : Word) (s : State) : State := s.writeDest dst imm

/-- MOVR (41_data_transfer.md R107). -/
def microMovr (dst src : Gpr) (s : State) : State := s.writeGpr dst (s.readGpr src)

/-- LOAD (41_data_transfer.md R108). -/
def microLoad (dst : Gpr) (addr : Nat) (s : State) : State := s.writeGpr dst (s.readDirect addr)

/-- STORE (41_data_transfer.md R109). -/
def microStore (addr : Nat) (src : Gpr) (s : State) : State := s.writeDirect addr (s.readGpr src)

/-- F01 `MOV d, n` (R106). -/
def execMovRI (d : Gpr) (n : Nat) (s : State) : Result := .next (microMovi (.gpr d) (immediate n) s)

/-- F02 `MOV d, s` (R107). -/
def execMovRR (d src : Gpr) (s : State) : Result := .next (microMovr d src s)

/-- F03 `MOV d, [a]` (R108). -/
def execMovRM (d : Gpr) (a : Nat) (s : State) : Result := .next (microLoad d a s)

/-- F04 `MOV [a], s` (R109). -/
def execMovMR (a : Nat) (src : Gpr) (s : State) : Result := .next (microStore a src s)

end Sys2Proof.Machine
end

