-- ==== Sys2Proof/Machine/Flags.lean ====
section
/-! DEFINITION. Every flag computation (42_arithmetic.md R110 to R112, R117, R118). A flag that a function does not name
keeps its value (00_scope.md R14). -/

namespace Sys2Proof.Machine

/-- `popcount` of the low `k` bits of `v` (00_scope.md R12). -/
def popcount : Nat → Nat → Nat
  | 0, _ => 0
  | k + 1, v => v % 2 + popcount k (v / 2)

/-- `parity(r)`: an even number of 1 bits in the low byte (42_arithmetic.md R110). -/
def parity (r : Word) : Bool := popcount 8 r.toNat % 2 == 0

/-- `r = 0`. -/
def isZero (r : Word) : Bool := r == 0#16

/-- `r[15] = 1`. -/
def signBit (r : Word) : Bool := r.getLsbD 15

/-- The low four bits, `v[3:0]`. -/
def lowNibble (v : Word) : Nat := v.toNat % 16

/-- Flags of an addition `a + b` (42_arithmetic.md R111). -/
def addFlags (f : Flags) (a b : Word) : Flags :=
  let r := a + b
  { f with
    cf := decide (a.toNat + b.toNat > 0xFFFF)
    pf := parity r
    af := decide (lowNibble a + lowNibble b > 0xF)
    zf := isZero r
    sf := signBit r
    of := ((a ^^^ r) &&& (b ^^^ r) &&& 0x8000#16) != 0#16 }

/-- Flags of a comparison `a - b`: ZF, SF, CF and OF as a subtraction sets them, PF and AF kept (42_arithmetic.md R117;
logs 3 and 25). -/
def cmpFlags (f : Flags) (a b : Word) : Flags :=
  let r := a - b
  { f with
    zf := isZero r
    sf := signBit r
    cf := decide (a.toNat < b.toNat)
    of := ((a ^^^ b) &&& (a ^^^ r) &&& 0x8000#16) != 0#16 }

/-- Flags of a subtraction `a - b` (42_arithmetic.md R112; log 25). -/
def subFlags (f : Flags) (a b : Word) : Flags :=
  let r := a - b
  { f with
    cf := decide (a.toNat < b.toNat)
    pf := parity r
    af := decide (lowNibble a < lowNibble b)
    zf := isZero r
    sf := signBit r
    of := ((a ^^^ b) &&& (a ^^^ r) &&& 0x8000#16) != 0#16 }

/-- Flags of a multiplication: CF and OF say whether the high half is not 0, the others are kept (42_arithmetic.md R118;
log 4). -/
def mulFlags (f : Flags) (high : Word) : Flags :=
  { f with cf := high != 0#16, of := high != 0#16 }

end Sys2Proof.Machine
end

