-- ==== Sys2Proof/Machine/Arithmetic.lean ====
section
/-! DEFINITION. ADD, SUB, CMP, MUL and DIV: their micro-ops and the meanings of forms F05 to F11 (42_arithmetic.md R113 to
R119). Every operand is read before the first write (00_scope.md R19, log 6). -/

namespace Sys2Proof.Machine

/-- ADDR (42_arithmetic.md R113). -/
def microAddr (dst : Gpr) (src : GprOrTemp) (s : State) : State :=
  let a := s.readGpr dst
  let b := s.readSource src
  { s.writeGpr dst (a + b) with flags := addFlags s.flags a b }

/-- SUBR (42_arithmetic.md R115). -/
def microSubr (dst : Gpr) (src : GprOrTemp) (s : State) : State :=
  let a := s.readGpr dst
  let b := s.readSource src
  { s.writeGpr dst (a - b) with flags := subFlags s.flags a b }

/-- CMPR (42_arithmetic.md R117). -/
def microCmpr (p q : Gpr) (s : State) : State :=
  { s with flags := cmpFlags s.flags (s.readGpr p) (s.readGpr q) }

/-- MUL: the exact 32-bit product of AX and the operand, split into DX:AX (42_arithmetic.md R118). -/
def microMul (src : Gpr) (s : State) : State :=
  let product := (s.readGpr .ax).toNat * (s.readGpr src).toNat
  let low := BitVec.ofNat 16 product
  let high := BitVec.ofNat 16 (product / Config.wordModulus)
  { (s.writeGpr .ax low).writeGpr .dx high with flags := mulFlags s.flags high }

/-- The dividend DX:AX (42_arithmetic.md R119). -/
def State.dividend (s : State) : Nat :=
  (s.readGpr .dx).toNat * Config.wordModulus + (s.readGpr .ax).toNat

/-- DIV: the quotient to AX, truncated as every register write is (log 5), and the remainder to DX; a divisor of 0 raises
the fault before any write (42_arithmetic.md R119, 60_exceptions.md R130). -/
def microDiv (src : Gpr) (s : State) : Result :=
  let v := (s.readGpr src).toNat
  if v = 0 then raiseDivideByZero s
  else
    .next ((s.writeGpr .ax (BitVec.ofNat 16 (s.dividend / v))).writeGpr .dx (BitVec.ofNat 16 (s.dividend % v)))

/-- F05 `ADD d, s` (R113). -/
def execAddRR (d src : Gpr) (s : State) : Result := .next (microAddr d (.gpr src) s)

/-- F06 `ADD d, n`: MOVI to TEMP, then ADDR from TEMP (R114). -/
def execAddRI (d : Gpr) (n : Nat) (s : State) : Result := .next (microAddr d .temp (microMovi .temp (immediate n) s))

/-- F07 `SUB d, s` (R115). -/
def execSubRR (d src : Gpr) (s : State) : Result := .next (microSubr d (.gpr src) s)

/-- F08 `SUB d, n`: MOVI to TEMP, then SUBR from TEMP (R116). -/
def execSubRI (d : Gpr) (n : Nat) (s : State) : Result := .next (microSubr d .temp (microMovi .temp (immediate n) s))

/-- F09 `CMP p, q` (R117). -/
def execCmpRR (p q : Gpr) (s : State) : Result := .next (microCmpr p q s)

/-- F10 `MUL s` (R118). -/
def execMulR (src : Gpr) (s : State) : Result := .next (microMul src s)

/-- F11 `DIV s` (R119). -/
def execDivR (src : Gpr) (s : State) : Result := microDiv src s

end Sys2Proof.Machine
end

