-- ==== Sys2Proof/Machine/ControlTransfer.lean ====
section
/-! DEFINITION. JMP, JZ and JNZ: their micro-ops and the meanings of forms F12 to F14 (43_control_transfer.md R121 to R123).
The step's increment follows every one of them (40_sequencer.md R97). -/

namespace Sys2Proof.Machine

/-- JMP (43_control_transfer.md R121). -/
def microJmp (t : Nat) (s : State) : State := s.jumpTo t

/-- JZ: taken iff ZF is set (43_control_transfer.md R122). -/
def microJz (t : Nat) (s : State) : State := if s.flags.zf then s.jumpTo t else s

/-- JNZ: taken iff ZF is clear (43_control_transfer.md R123). -/
def microJnz (t : Nat) (s : State) : State := if s.flags.zf then s else s.jumpTo t

/-- F12 `JMP t` (R121). -/
def execJmpH (t : Nat) (s : State) : Result := .next (microJmp t s)

/-- F13 `JZ t` (R122). -/
def execJzH (t : Nat) (s : State) : Result := .next (microJz t s)

/-- F14 `JNZ t` (R123). -/
def execJnzH (t : Nat) (s : State) : Result := .next (microJnz t s)

end Sys2Proof.Machine
end

