-- ==== Sys2Proof/Machine/Placeholders.lean ====
section
/-! DEFINITION. The placeholders UNIMPL and MALFORMED (44_placeholders.md R125 to R127): applying one changes nothing. -/

namespace Sys2Proof.Machine

/-- Applying either placeholder is a no-op (44_placeholders.md R127). -/
def microPlaceholder (s : State) : State := s

/-- F15, any other line, of either kind (R125, R126): the step that holds it only goes on to the next line. -/
def execPlaceholder (_kind : PlaceholderKind) (_line : Text) (s : State) : Result := .next (microPlaceholder s)

end Sys2Proof.Machine
end

