-- ==== Sys2Proof/Machine/Sequencer.lean ====
section
/-! DEFINITION. The sequencer's parts (40_sequencer.md R95 to R98): lowering (30_encoding.md R84), applying micro-ops in
order, fetching, recording, the increment, and what a fault leaves. `Step.lean` only puts them together. -/

namespace Sys2Proof.Machine

/-- The micro-op list an instruction lowers to: the form table of 30_encoding.md R84. -/
def lower : Instr → List MicroOp
  | .movRI d n => [.movi (.gpr d) (immediate n)]
  | .movRR d s => [.movr d s]
  | .movRM d a => [.load d a]
  | .movMR a s => [.store a s]
  | .addRR d s => [.addr d (.gpr s)]
  | .addRI d n => [.movi .temp (immediate n), .addr d .temp]
  | .subRR d s => [.subr d (.gpr s)]
  | .subRI d n => [.movi .temp (immediate n), .subr d .temp]
  | .cmpRR p q => [.cmpr p q]
  | .mulR s => [.mul s]
  | .divR s => [.div s]
  | .jmpH t => [.jmp t]
  | .jzH t => [.jz t]
  | .jnzH t => [.jnz t]
  | .placeholder .unimpl line => [.unimpl line]
  | .placeholder .malformed line => [.malformed (Config.malformedMessage line)]

/-- `apply(u)`: one micro-op (30_encoding.md R81). -/
def applyMicro (u : MicroOp) (s : State) : Result :=
  match u with
  | .movi dst imm => .next (microMovi dst imm s)
  | .movr dst src => .next (microMovr dst src s)
  | .load dst a => .next (microLoad dst a s)
  | .store a src => .next (microStore a src s)
  | .addr dst src => .next (microAddr dst src s)
  | .subr dst src => .next (microSubr dst src s)
  | .cmpr a b => .next (microCmpr a b s)
  | .mul src => .next (microMul src s)
  | .div src => microDiv src s
  | .jmp t => .next (microJmp t s)
  | .jz t => .next (microJz t s)
  | .jnz t => .next (microJnz t s)
  | .unimpl _ => .next (microPlaceholder s)
  | .malformed _ => .next (microPlaceholder s)

/-- The micro-ops of a step, strictly in list order; a fault skips the rest (40_sequencer.md R96). -/
def applyMicros : List MicroOp → State → Result
  | [], s => .next s
  | u :: us, s => andThen (applyMicro u s) (applyMicros us)

/-- The fetch: the line at IP, or none where the engine is halted or IP is out of the program (40_sequencer.md R95). -/
def fetchLine (s : State) : Option Text :=
  if s.halted then none else s.lines[s.ip]?

/-- A step that executes nothing only sets `halted` (40_sequencer.md R95, 90_conflicts.md C3). -/
def haltStep (s : State) : State := { s with halted := true }

/-- The step's record of what it is about to run (40_sequencer.md R95). -/
def recordStep (s : State) (line : Text) : State :=
  { s with currentInstruction := some line, lastMicroinstructions := lower (decode line) }

/-- The unconditional increment `pc <- x[IP] + 1` (40_sequencer.md R97). -/
def advanceIp (s : State) : State := s.writeIp (s.ip + 1)

/-- What a faulting step leaves (40_sequencer.md R98, 60_exceptions.md R132): IP is not advanced, and each of the two
introspection fields holds the value from before the step or the one the step recorded, which one is free (log 14). -/
def settleFault (before failed : State) : State :=
  { failed with
    currentInstruction := if failed.freeBit 0 then failed.currentInstruction else before.currentInstruction
    lastMicroinstructions := if failed.freeBit 1 then failed.lastMicroinstructions else before.lastMicroinstructions
    draws := failed.draws + 2 }

/-- The end of a step: the increment after the last micro-op, or the fault (40_sequencer.md R95). -/
def finishStep (before : State) (applied : Result) : Result :=
  match applied with
  | .next s => .next (advanceIp s)
  | .fault (.divideByZero failed) => .fault (.divideByZero (settleFault before failed))
  | .refused r => .refused r

/-- The program store with `line` at IP, reached by the next fetch: the line there is replaced, or the program is extended
up to IP with copies of it; the engine is not halted (log 21). -/
def placeLine (s : State) (line : Text) : State :=
  { s with
    halted := false
    lines := s.lines.take s.ip ++ List.replicate (s.ip - s.lines.length) line ++ line :: s.lines.drop (s.ip + 1) }

end Sys2Proof.Machine
end

