-- ==== Sys2Proof/Machine/Dispatch.lean ====
section
/-! DEFINITION. Which meaning each instruction has: one arm per constructor of Instr. -/

namespace Sys2Proof.Machine

def exec (i : Instr) (s : State) : Host.Outcome State Fault Refusal :=
  match i with
  | .movRI d n => Sys2Proof.Machine.execMovRI d n s
  | .movRR d src => Sys2Proof.Machine.execMovRR d src s
  | .movRM d a => Sys2Proof.Machine.execMovRM d a s
  | .movMR a src => Sys2Proof.Machine.execMovMR a src s
  | .addRR d src => Sys2Proof.Machine.execAddRR d src s
  | .addRI d n => Sys2Proof.Machine.execAddRI d n s
  | .subRR d src => Sys2Proof.Machine.execSubRR d src s
  | .subRI d n => Sys2Proof.Machine.execSubRI d n s
  | .cmpRR p q => Sys2Proof.Machine.execCmpRR p q s
  | .mulR src => Sys2Proof.Machine.execMulR src s
  | .divR src => Sys2Proof.Machine.execDivR src s
  | .jmpH t => Sys2Proof.Machine.execJmpH t s
  | .jzH t => Sys2Proof.Machine.execJzH t s
  | .jnzH t => Sys2Proof.Machine.execJnzH t s
  | .placeholder kind line => Sys2Proof.Machine.execPlaceholder kind line s

end Sys2Proof.Machine
end

