-- ==== Sys2Proof/Machine/Step.lean ====
section
/-! DEFINITION. The step: fetch, decode, apply, advance (40_sequencer.md R95). -/

namespace Sys2Proof.Machine

/-- `step()` (40_sequencer.md R95). Both `Ok(true)` and `Ok(false)` are a next state; `HostOps.lean` says which (log 20). -/
def step (s : State) : Host.Outcome State Fault Refusal :=
  match fetchLine s with
  | none => .next (haltStep s)
  | some line => finishStep s (exec (decode line) (recordStep s line))

/-- `s` with the line of a table word where `step` fetches next (logs 20 and 21). -/
def State.withFetchWord (s : State) (nbits w : Nat) : State := placeLine s (textOfWord (nbits / 8) w)

end Sys2Proof.Machine
end

