-- ==== Sys2Proof/Machine/HostOps.lean ====
section
/-! DEFINITION. The five host operations (40_sequencer.md R91), their replies, the run loop, the status and the snapshot. -/

namespace Sys2Proof.Machine

/-- The fault kinds (00_scope.md R17). -/
inductive FaultKind where
  | divideByZero
  deriving DecidableEq, Repr

/-- The code of a fault (60_exceptions.md R129). -/
def FaultKind.code : FaultKind → Nat
  | .divideByZero => 0

/-- What `step()` returns (00_scope.md R17), a fault with the error message the host receives beside it (60_exceptions.md
R129; its text is free, log 29). `stopped` is never returned while every instruction has a meaning. -/
inductive StepReply where
  | ok (executed : Bool)
  | fault (kind : FaultKind) (message : Text)
  | stopped (why : Refusal)
  deriving DecidableEq, Repr

/-- `reset()` (70_reset_and_hazards.md R145): every item of the spec's state at its reset value, from any state. The model's
own draw count goes on, so that later free values are fresh ones (log 18). -/
def hostReset (s : State) : State := { State.reset with draws := s.draws }

/-- `load(code)`: reset, then the program store from the text (40_sequencer.md R94). -/
def hostLoad (code : Text) (s : State) : State :=
  { hostReset s with lines := (parseProgram code).1, labels := (parseProgram code).2 }

/-- The error message of the fault that left this state, DESIGN CHOICE: a free text, numbered by the draw count, which every
fault advances, so that each fault has a message of its own (40_sequencer.md R93, 60_exceptions.md R129, log 29). -/
def errorMessage (left : State) : Text := Config.faultMessage left.draws

/-- `step()` with its reply and the state it leaves, after a fault as well (40_sequencer.md R95, 60_exceptions.md R132). -/
def hostStep (s : State) : StepReply × State :=
  match step s with
  | .next t => (.ok (fetchLine s).isSome, t)
  | .fault (.divideByZero t) => (.fault .divideByZero (errorMessage t), t)
  | .refused r => (.stopped r, s)

/-- How `run()` ends (40_sequencer.md R100), a fault with the error message of the step that raised it (log 29). -/
inductive RunReply where
  | done
  | fault (kind : FaultKind) (message : Text)
  | stopped (why : Refusal)
  deriving DecidableEq, Repr

/-- `running` after a run that faulted: a free value (10_state.md R39, log 15). -/
def freeRunning (s : State) : State := { s with running := s.freeBit 0, draws := s.draws + 1 }

/-- The loop of `run()` under fuel: none when the fuel ends first, which is no claim that it ends (40_sequencer.md R100,
R101, log 21). -/
def runLoop : Nat → State → Option (RunReply × State)
  | 0, _ => none
  | fuel + 1, s =>
    if s.running then
      match hostStep s with
      | (.ok true, t) => runLoop fuel t
      | (.ok false, t) => some (.done, { t with running := false })
      | (.fault k message, t) => some (.fault k message, freeRunning t)
      | (.stopped r, t) => some (.stopped r, t)
    else some (.done, { s with running := false })

/-- `run()` (40_sequencer.md R100). -/
def hostRun (fuel : Nat) (s : State) : Option (RunReply × State) := runLoop fuel { s with running := true }

/-- The engine status (40_sequencer.md R102). -/
inductive Status where
  | ready | running | halted
  deriving DecidableEq, Repr

/-- The status from the two status bits (40_sequencer.md R102, log 24). -/
def State.status (s : State) : Status :=
  if s.halted then .halted else if s.running then .running else .ready

/-- The description string of a micro-op: the two fixed ones, and free text for the others (30_encoding.md R82, log 17). -/
def description : MicroOp → Text
  | .unimpl line => ['U', 'n', 'i', 'm', 'p', 'l', 'e', 'm', 'e', 'n', 't', 'e', 'd', ':', ' '] ++ line
  | .malformed msg => ['E', 'r', 'r', 'o', 'r', ':', ' '] ++ msg
  | u => Config.microOpDescription u

/-- The eight 8-bit views of a snapshot (40_sequencer.md R103). -/
structure Views where
  ah : Byte
  al : Byte
  bh : Byte
  bl : Byte
  ch : Byte
  cl : Byte
  dh : Byte
  dl : Byte
  deriving DecidableEq, Repr

/-- A snapshot (40_sequencer.md R103): no TEMP, no program store, no label table, no memory above the window. -/
structure Snapshot where
  gprs : GprFile
  segs : SegFile
  regs8 : Views
  flags : Flags
  memory : List Byte
  currentInstruction : Option Text
  microinstructions : List Text
  status : Status
  ip : Nat
  deriving DecidableEq, Repr

/-- `get_state()` (40_sequencer.md R103, R104). -/
def getState (s : State) : Snapshot where
  gprs := s.gprs
  segs := s.segs
  regs8 :=
    { ah := s.readView .ah, al := s.readView .al, bh := s.readView .bh, bl := s.readView .bl
      ch := s.readView .ch, cl := s.readView .cl, dh := s.readView .dh, dl := s.readView .dl }
  flags := s.flags
  memory := (List.range Config.snapshotBytes).map s.mem.read
  currentInstruction := s.currentInstruction
  microinstructions := s.lastMicroinstructions.map description
  status := s.status
  ip := s.ip

/-- The five host operations (40_sequencer.md R91); `run` is given how many steps to try (log 21). -/
inductive HostOp where
  | reset
  | load (code : Text)
  | step
  | run (fuel : Nat)
  | getState
  deriving DecidableEq, Repr

/-- What an operation returns (40_sequencer.md R91). -/
inductive HostReply where
  | nothing
  | stepped (reply : StepReply)
  | ran (reply : RunReply)
  | snapshot (view : Snapshot)
  deriving DecidableEq, Repr

/-- One host operation, atomically: its reply and the state after it (40_sequencer.md R91, R92). None is a `run` that has
not returned within its fuel. -/
def hostOp (op : HostOp) (s : State) : Option (HostReply × State) :=
  match op with
  | .reset => some (.nothing, hostReset s)
  | .load code => some (.nothing, hostLoad code s)
  | .step => some (.stepped (hostStep s).1, (hostStep s).2)
  | .run fuel => (hostRun fuel s).map (fun e => (.ran e.1, e.2))
  | .getState => some (.snapshot (getState s), s)

/-- One request of the transport: the operation, and then always `get_state()`, after a fault too, where the reply holds the
error message and the snapshot shows the state at the point of failure (40_sequencer.md R93; the message's text is the free
value of log 29). -/
def hostRequest (op : HostOp) (s : State) : Option (HostReply × Snapshot × State) :=
  (hostOp op s).map (fun e => (e.1, getState e.2, e.2))

end Sys2Proof.Machine
end

