-- ==== Sys2Proof/Safety.lean ====
section
/-! DEFINITION. The terms statements are made in: what a step keeps (frames), which parts each instruction may write
(10_state.md R27, R35), the invariant of the machine, the state that can be varied without being observed, runs of steps, and
program texts written from encodings. -/

namespace Sys2Proof

/-- One of the forms F01 to F14: an "admitted line" is one that decodes to such an instruction (00_scope.md R22). -/
def Instr.isCore : Instr → Bool
  | .placeholder .. => false
  | .movRI .. | .movRR .. | .movRM .. | .movMR .. | .addRR .. | .addRI .. | .subRR .. | .subRI .. | .cmpRR ..
  | .mulR .. | .divR .. | .jmpH .. | .jzH .. | .jnzH .. => true

/-- A program text: the encodings of the instructions, one a line (30_encoding.md R66). -/
def programText : List Instr → Text
  | [] => []
  | i :: is => encode i ++ Machine.lineFeed :: programText is

end Sys2Proof

namespace Sys2Proof.Machine

/-! ### Frames -/

/-- Every general register outside `except` reads as before. -/
def GprsKept (except : List Gpr) (s t : State) : Prop :=
  ∀ r, r ∉ except → t.readGpr r = s.readGpr r

/-- Every flag outside `except` is as before. -/
def FlagsKept (except : List Flag) (s t : State) : Prop :=
  ∀ f, f ∉ except → t.flags.get f = s.flags.get f

/-- Every byte of data memory outside `except` reads as before. -/
def MemKept (except : List Nat) (s t : State) : Prop :=
  ∀ a, a ∉ except → t.mem.read a = s.mem.read a

/-- The state no instruction writes: the segment registers, the program store, the status bits, and what the step itself has
recorded. -/
def ControlKept (s t : State) : Prop :=
  t.segs = s.segs ∧ t.lines = s.lines ∧ t.labels = s.labels ∧ t.halted = s.halted ∧ t.running = s.running ∧
    t.currentInstruction = s.currentInstruction ∧ t.lastMicroinstructions = s.lastMicroinstructions ∧ t.draws = s.draws

/-- The two bytes a 16-bit access at `a` touches (20_memory.md R50, R55). -/
def accessedBytes (a : Nat) : List Nat := [physAddr a, physAddr (a + 1)]

/-- The six flags ADD and SUB write (10_state.md R35). -/
def arithFlags : List Flag := [.cf, .pf, .af, .zf, .sf, .of]

/-- The four flags CMP writes (10_state.md R35). -/
def compareFlags : List Flag := [.zf, .sf, .cf, .of]

/-- The two flags MUL writes (10_state.md R35). -/
def productFlags : List Flag := [.cf, .of]

/-- The general registers an instruction writes: the "writes" column of 10_state.md R27. -/
def gprsWritten : Instr → List Gpr
  | .movRI d _ | .movRR d _ | .movRM d _ | .addRR d _ | .addRI d _ | .subRR d _ | .subRI d _ => [d]
  | .mulR _ | .divR _ => [.ax, .dx]
  | .movMR .. | .cmpRR .. | .jmpH _ | .jzH _ | .jnzH _ | .placeholder .. => []

/-- The flags an instruction writes: 10_state.md R35. -/
def flagsWritten : Instr → List Flag
  | .addRR .. | .addRI .. | .subRR .. | .subRI .. => arithFlags
  | .cmpRR .. => compareFlags
  | .mulR _ => productFlags
  | .movRI .. | .movRR .. | .movRM .. | .movMR .. | .divR _ | .jmpH _ | .jzH _ | .jnzH _ | .placeholder .. => []

/-- The bytes of data memory an instruction writes (20_memory.md R56). -/
def bytesWritten : Instr → List Nat
  | .movMR a _ => accessedBytes a
  | .movRI .. | .movRR .. | .movRM .. | .addRR .. | .addRI .. | .subRR .. | .subRI .. | .cmpRR .. | .mulR _ | .divR _
  | .jmpH _ | .jzH _ | .jnzH _ | .placeholder .. => []

/-- The instructions that overwrite TEMP (70_reset_and_hazards.md R150). -/
def writesTemp : Instr → Bool
  | .addRI .. | .subRI .. => true
  | .movRI .. | .movRR .. | .movRM .. | .movMR .. | .addRR .. | .subRR .. | .cmpRR .. | .mulR _ | .divR _
  | .jmpH _ | .jzH _ | .jnzH _ | .placeholder .. => false

/-- The instructions that may write IP beside the step's increment (10_state.md R32). -/
def isJump : Instr → Bool
  | .jmpH _ | .jzH _ | .jnzH _ => true
  | .movRI .. | .movRR .. | .movRM .. | .movMR .. | .addRR .. | .addRI .. | .subRR .. | .subRI .. | .cmpRR .. | .mulR _
  | .divR _ | .placeholder .. => false

/-- The two forms that reach data memory (20_memory.md R56). -/
def touchesMemory : Instr → Bool
  | .movRM .. | .movMR .. => true
  | .movRI .. | .movRR .. | .addRR .. | .addRI .. | .subRR .. | .subRI .. | .cmpRR .. | .mulR _ | .divR _
  | .jmpH _ | .jzH _ | .jnzH _ | .placeholder .. => false

/-! ### The invariant -/

/-- What holds of every state the host can bring the machine to: the memory is in canonical form (so every listed address is
below 2^20); the segment registers hold 0 (10_state.md R28) and TF, IF and DF are false (R36); IP fits 16 bits when it wraps
(00_scope.md R10); every line is a stored line (30_encoding.md R67); the label table is a map into the program (10_state.md
R42); and the introspection fields hold a line of the program and a lowering of one (R40, R41). -/
structure State.Inv (s : State) : Prop where
  memory : s.mem.wf = true
  segments : s.segs = { cs := 0#16, ds := 0#16, es := 0#16, ss := 0#16 }
  inertFlags : s.flags.tf = false ∧ s.flags.if_ = false ∧ s.flags.df = false
  ipRange : Config.ipWrap16 = true → s.ip < Config.wordModulus
  stored : ∀ line ∈ s.lines, isStoredLine line = true
  labelRange : ∀ e ∈ s.labels, e.2 ≤ s.lines.length
  labelNames : (s.labels.map Prod.fst).Nodup
  fetched : ∀ line, s.currentInstruction = some line → line ∈ s.lines
  recorded : s.lastMicroinstructions = [] ∨ ∃ line ∈ s.lines, s.lastMicroinstructions = lower (decode line)

/-! ### State that cannot be observed -/

/-- A result with its state changed by `f`. -/
def mapResult (f : State → State) : Result → Result
  | .next s => .next (f s)
  | .fault (.divideByZero s) => .fault (.divideByZero (f s))
  | .refused r => .refused r

/-- `s` with another value in TEMP (10_state.md R29). -/
def State.withTemp (s : State) (v : Word) : State := { s with temp := v }

/-- `s` with another data memory. -/
def State.withMem (s : State) (m : Memory) : State := { s with mem := m }

/-- What no step reads (10_state.md R28, R36, R39, R43): the segment registers, the label table, `running`, TF, IF, DF. -/
structure Inert where
  segs : SegFile
  labels : LabelTable
  running : Bool
  tf : Bool
  if_ : Bool
  df : Bool
  deriving DecidableEq, Repr

/-- `s` with other values in the state that no step reads. -/
def State.withInert (s : State) (x : Inert) : State :=
  { s with
    segs := x.segs
    labels := x.labels
    running := x.running
    flags := { s.flags with tf := x.tf, if_ := x.if_, df := x.df } }

/-! ### Runs of steps -/

/-- The state after `k` steps that each return `Ok(true)`; none where one of them does not. -/
def okSteps : Nat → State → Option State
  | 0, s => some s
  | k + 1, s =>
    match hostStep s with
    | (.ok true, t) => okSteps k t
    | _ => none

/-- The execution from `s` completes: some step returns `Ok(false)` (40_sequencer.md R105, item 1). -/
def Completes (s : State) : Prop := ∃ k u t, okSteps k s = some u ∧ hostStep u = (.ok false, t)

/-- The execution from `s` reaches the fault (40_sequencer.md R105, item 2). -/
def Faults (s : State) : Prop :=
  ∃ k u message t, okSteps k s = some u ∧ hostStep u = (.fault .divideByZero message, t)

/-- The execution from `s` never ends (40_sequencer.md R105, item 3). -/
def Diverges (s : State) : Prop := ∀ k, ∃ u, okSteps k s = some u

end Sys2Proof.Machine
end

