-- ==== Sys2Proof/Certificates/Slice0/Obligations.lean ====
section
/-! DEFINITION. The statements for the provers, made from the numbered rules of spec/. A docstring names the rule a statement
formalises; where a clause rests on a decision the spec marks as its own, it names that decision and its log entry. -/

open Sys2Proof Sys2Proof.Machine

/-! ### Reset and load -/

/-- R147, read with 90_conflicts.md C9: after `reset()`, from any state, the general registers but SP and the segment registers
are 0, SP is 0xFFFE, all flags are false, IP is 0 and the engine is not halted but Ready. -/
def Obligations.ResetLeavesStatedValues : Prop :=
  ∀ s : Machine.State,
    (∀ r, (hostReset s).readGpr r = if r = .sp then 0xFFFE#16 else 0#16) ∧
    (∀ r, (hostReset s).segs.get r = 0#16) ∧
    (∀ f, (hostReset s).flags.get f = false) ∧
    (hostReset s).ip = 0 ∧ (hostReset s).halted = false ∧ (hostReset s).status = .ready

/-- R48 and R145 item by item, from any state: also memory, TEMP (the spec's decision D20, log 16), the program store and the
introspection fields; the state after power-on is the same one. The model's own draw count is left out (log 18). -/
def Obligations.ResetRestoresEveryItem : Prop :=
  ∀ s : Machine.State,
    (∀ a, (hostReset s).mem.read a = 0#8) ∧ (hostReset s).temp = 0#16 ∧ (hostReset s).lines = [] ∧
    (hostReset s).labels = [] ∧ (hostReset s).running = false ∧ (hostReset s).currentInstruction = none ∧
    (hostReset s).lastMicroinstructions = [] ∧
    hostReset s = { State.reset with draws := s.draws }

/-- The state after reset meets the invariant (R48). -/
def Obligations.ResetMeetsInvariant : Prop := State.reset.Inv

/-- R94: `load` resets and then holds the parsed program; IP is 0 and the engine is Ready to execute line 0. -/
def Obligations.LoadResetsThenParses : Prop :=
  ∀ (code : Text) (s : Machine.State),
    (hostLoad code s).lines = (parseProgram code).1 ∧ (hostLoad code s).labels = (parseProgram code).2 ∧
    hostLoad code s = { hostReset s with lines := (parseProgram code).1, labels := (parseProgram code).2 } ∧
    (hostLoad code s).ip = 0 ∧ (hostLoad code s).halted = false ∧ (hostLoad code s).running = false ∧
    (hostLoad code s).status = .ready ∧ fetchLine (hostLoad code s) = (parseProgram code).1.head?

/-! ### Memory -/

/-- R53, the round trip under truncation and the masking of addresses, at every address; the second byte at 0xFFFFF wraps by
the spec's decision D7 (log 2). -/
def Obligations.MemoryRoundTrip : Prop :=
  (∀ (m : Memory) (addr v : Nat), m.wf = true → memRead (memWrite m addr 2 v) addr 2 = v % 65536) ∧
  (∀ (m : Memory) (addr : Nat), memRead m addr 2 = memRead m (addr % 1048576) 2)

/-- R52 and R54: a write puts bits 7:0 at the lower address and bits 15:8 at the next one (decision D7 at the top, log 2),
leaves every other byte, and keeps the canonical form. -/
def Obligations.MemWriteIsLittleEndian : Prop :=
  ∀ (m : Memory) (addr v : Nat), m.wf = true →
    (memWrite m addr 2 v).wf = true ∧
    ((memWrite m addr 2 v).read (addr % 1048576)).toNat = v % 256 ∧
    ((memWrite m addr 2 v).read ((addr + 1) % 1048576)).toNat = v / 256 % 256 ∧
    ∀ a, a ≠ addr % 1048576 → a ≠ (addr + 1) % 1048576 → (memWrite m addr 2 v).read a = m.read a

/-- R51 for every width `n` (decision D27, log 28): MemRead is the little-endian sum of the bytes at the masked addresses, each
byte's address masked on its own (decision D7, log 2), so it is below `2^(8n)`. -/
def Obligations.MemReadIsLittleEndianSum : Prop :=
  ∀ (m : Memory) (addr n : Nat),
    memRead m addr n = ((List.range n).map (fun i => (m.read ((addr + i) % 1048576)).toNat * 256 ^ i)).sum ∧
    memRead m addr n < 2 ^ (8 * n)

/-! ### Registers -/

/-- R25: a register write stores the value mod 2^16 (for IP, when IP_WRAP16 is true: decision D8, log 1; that TEMP has 16 bits
is decision D20, log 16), and every other register and all other state stay as they were. -/
def Obligations.RegisterWriteTruncates : Prop :=
  ∀ (s : Machine.State) (r : RegId) (v : Nat),
    (s.writeReg r v).readReg r = (if r = .ip ∧ Config.ipWrap16 = false then v else v % 65536) ∧
    (∀ r', r' ≠ r → (s.writeReg r v).readReg r' = s.readReg r') ∧
    (s.writeReg r v).flags = s.flags ∧ (s.writeReg r v).mem = s.mem ∧
    (s.writeReg r v).lines = s.lines ∧ (s.writeReg r v).labels = s.labels ∧
    (s.writeReg r v).halted = s.halted ∧ (s.writeReg r v).running = s.running ∧
    (s.writeReg r v).currentInstruction = s.currentInstruction ∧
    (s.writeReg r v).lastMicroinstructions = s.lastMicroinstructions ∧ (s.writeReg r v).draws = s.draws

/-- R24: each 8-bit view is the high or low byte of its register (the views are no operands: decision D4, log 7). -/
def Obligations.ViewsAreRegisterHalves : Prop :=
  ∀ s : Machine.State,
    (s.readView .ah).toNat = (s.readGpr .ax).toNat / 256 ∧ (s.readView .al).toNat = (s.readGpr .ax).toNat % 256 ∧
    (s.readView .bh).toNat = (s.readGpr .bx).toNat / 256 ∧ (s.readView .bl).toNat = (s.readGpr .bx).toNat % 256 ∧
    (s.readView .ch).toNat = (s.readGpr .cx).toNat / 256 ∧ (s.readView .cl).toNat = (s.readGpr .cx).toNat % 256 ∧
    (s.readView .dh).toNat = (s.readGpr .dx).toNat / 256 ∧ (s.readView .dl).toNat = (s.readGpr .dx).toNat % 256

/-- R10: `ipw` reduces mod 2^16 exactly when IP_WRAP16 holds (log 1). -/
def Obligations.IpWriteFollowsParameter : Prop :=
  ∀ v : Nat, ipw v = if Config.ipWrap16 then v % 65536 else v

/-! ### Flags -/

/-- R110: parity is true exactly when an even number of the low byte's bits are 1; and its three examples. -/
def Obligations.ParityCountsLowByte : Prop :=
  (∀ r : Word, parity r = true ↔ ((List.range 8).filter (fun i => r.getLsbD i)).length % 2 = 0) ∧
  parity 0#16 = true ∧ parity 0x0008#16 = false ∧ parity 0x00FF#16 = true

/-- R111: the six flags of an addition, the three it does not write, the other form of the AF test, and what OF says. -/
def Obligations.AdditionFlags : Prop :=
  ∀ (f : Machine.Flags) (a b : Word),
    ((addFlags f a b).cf = true ↔ a.toNat + b.toNat > 0xFFFF) ∧
    (addFlags f a b).pf = parity (a + b) ∧
    ((addFlags f a b).af = true ↔ a.toNat % 16 + b.toNat % 16 > 15) ∧
    ((addFlags f a b).af = true ↔ (a ^^^ b ^^^ (a + b)) &&& 0x10#16 ≠ 0#16) ∧
    ((addFlags f a b).zf = true ↔ (a.toNat + b.toNat) % 65536 = 0) ∧
    ((addFlags f a b).sf = true ↔ 32768 ≤ (a.toNat + b.toNat) % 65536) ∧
    ((addFlags f a b).of = true ↔ (a ^^^ (a + b)) &&& (b ^^^ (a + b)) &&& 0x8000#16 ≠ 0#16) ∧
    ((addFlags f a b).of = true ↔ a.getLsbD 15 = b.getLsbD 15 ∧ (a + b).getLsbD 15 ≠ a.getLsbD 15) ∧
    (addFlags f a b).tf = f.tf ∧ (addFlags f a b).if_ = f.if_ ∧ (addFlags f a b).df = f.df

/-- R112: the six flags of a subtraction and what OF says; CF is the unsigned borrow, equal to a negative difference of
naturals (decision D13 and 90_conflicts.md C1, log 25). -/
def Obligations.SubtractionFlags : Prop :=
  ∀ (f : Machine.Flags) (a b : Word),
    ((subFlags f a b).cf = true ↔ a.toNat < b.toNat) ∧
    ((subFlags f a b).cf = true ↔ (a.toNat : Int) - (b.toNat : Int) < 0) ∧
    (subFlags f a b).pf = parity (a - b) ∧
    ((subFlags f a b).af = true ↔ a.toNat % 16 < b.toNat % 16) ∧
    ((subFlags f a b).zf = true ↔ a = b) ∧
    ((subFlags f a b).sf = true ↔ 32768 ≤ ((a.toNat : Int) - (b.toNat : Int)) % 65536) ∧
    ((subFlags f a b).of = true ↔ (a ^^^ b) &&& (a ^^^ (a - b)) &&& 0x8000#16 ≠ 0#16) ∧
    ((subFlags f a b).of = true ↔ a.getLsbD 15 ≠ b.getLsbD 15 ∧ (a - b).getLsbD 15 ≠ a.getLsbD 15) ∧
    (subFlags f a b).tf = f.tf ∧ (subFlags f a b).if_ = f.if_ ∧ (subFlags f a b).df = f.df

/-- The signed meaning of OF (00_scope.md R11, 42_arithmetic.md R120): it says that the sum or difference of the two values,
read as signed, does not fit 16 bits. -/
def Obligations.OverflowIsSignedOverflow : Prop :=
  ∀ (f : Machine.Flags) (a b : Word),
    ((addFlags f a b).of = true ↔ a.toInt + b.toInt < -32768 ∨ 32767 < a.toInt + b.toInt) ∧
    ((subFlags f a b).of = true ↔ a.toInt - b.toInt < -32768 ∨ 32767 < a.toInt - b.toInt) ∧
    (cmpFlags f a b).of = (subFlags f a b).of

/-! ### Data transfer -/

/-- R106: `MOV d, n` completes, leaves the literal mod 2^16 in `d` and changes nothing else; MOVI may also write TEMP. -/
def Obligations.MovImmediateWritesLiteral : Prop :=
  (∀ (d : Gpr) (n : Nat) (s : Machine.State), ∃ t, exec (.movRI d n) s = .next t ∧
    (t.readGpr d).toNat = n % 65536 ∧
    GprsKept [d] s t ∧ FlagsKept [] s t ∧ MemKept [] s t ∧ ControlKept s t ∧ t.temp = s.temp ∧ t.ip = s.ip) ∧
  (∀ (d : Gpr) (n : Nat), lower (.movRI d n) = [.movi (.gpr d) (BitVec.ofNat 16 n)]) ∧
  (∀ (imm : Word) (s : Machine.State), applyMicro (.movi .temp imm) s = .next { s with temp := imm })

/-- R107: `MOV d, s` completes, copies the register (the same register too) and changes nothing else. -/
def Obligations.MovRegisterCopies : Prop :=
  ∀ (d src : Gpr) (s : Machine.State), ∃ t, exec (.movRR d src) s = .next t ∧
    t.readGpr d = s.readGpr src ∧
    GprsKept [d] s t ∧ FlagsKept [] s t ∧ MemKept [] s t ∧ ControlKept s t ∧ t.temp = s.temp ∧ t.ip = s.ip ∧
    lower (.movRR d src) = [.movr d src] ∧ (d = src → t = s)

/-- `MOV d, [a]` (R108) completes at every address and loads the two bytes, the low one first; at the top of memory the second
byte wraps to address 0 by the spec's decision D7 (log 2). -/
def Obligations.MovLoadReadsTwoBytes : Prop :=
  ∀ (d : Gpr) (a : Nat) (s : Machine.State), ∃ t, exec (.movRM d a) s = .next t ∧
    (t.readGpr d).toNat = (s.mem.read (a % 1048576)).toNat + 256 * (s.mem.read ((a + 1) % 1048576)).toNat ∧
    GprsKept [d] s t ∧ FlagsKept [] s t ∧ MemKept [] s t ∧ ControlKept s t ∧ t.temp = s.temp ∧ t.ip = s.ip

/-- `MOV [a], s` (R109) completes at every address and stores the register's two bytes, the low one first, and no other byte;
at the top of memory the second byte wraps to address 0 by the spec's decision D7 (log 2). Where the memory is in canonical
form, which every step keeps, the two bytes read back. -/
def Obligations.MovStoreWritesTwoBytes : Prop :=
  ∀ (a : Nat) (src : Gpr) (s : Machine.State), ∃ t, exec (.movMR a src) s = .next t ∧
    (s.mem.wf = true →
      ((t.mem.read (a % 1048576)).toNat = (s.readGpr src).toNat % 256 ∧
        (t.mem.read ((a + 1) % 1048576)).toNat = (s.readGpr src).toNat / 256 ∧ t.mem.wf = true)) ∧
    MemKept [a % 1048576, (a + 1) % 1048576] s t ∧
    GprsKept [] s t ∧ FlagsKept [] s t ∧ ControlKept s t ∧ t.temp = s.temp ∧ t.ip = s.ip

/-- R56: no instruction but the two memory forms of MOV depends on data memory or changes it; a load depends on its two bytes
alone, and a store changes its two bytes alone (which byte is the second at the top of memory is decision D7, log 2). -/
def Obligations.OnlyMovTouchesMemory : Prop :=
  (∀ (i : Instr) (s : Machine.State) (m : Memory), touchesMemory i = false →
    exec i (s.withMem m) = mapResult (fun t => t.withMem m) (exec i s)) ∧
  (∀ (d : Gpr) (a : Nat) (s : Machine.State) (m : Memory), (∀ x ∈ accessedBytes a, m.read x = s.mem.read x) →
    exec (.movRM d a) (s.withMem m) = mapResult (fun t => t.withMem m) (exec (.movRM d a) s)) ∧
  (∀ (a : Nat) (src : Gpr) (s t : Machine.State), exec (.movMR a src) s = .next t → MemKept (accessedBytes a) s t)

/-! ### Arithmetic -/

/-- R113: `ADD d, s` completes, leaves the sum mod 2^16 in `d` and the flags of the addition, and changes nothing else. -/
def Obligations.AddRegistersResult : Prop :=
  ∀ (d src : Gpr) (s : Machine.State), ∃ t, exec (.addRR d src) s = .next t ∧
    (t.readGpr d).toNat = ((s.readGpr d).toNat + (s.readGpr src).toNat) % 65536 ∧
    t.flags = addFlags s.flags (s.readGpr d) (s.readGpr src) ∧
    GprsKept [d] s t ∧ FlagsKept arithFlags s t ∧ MemKept [] s t ∧ ControlKept s t ∧ t.temp = s.temp ∧ t.ip = s.ip ∧
    lower (.addRR d src) = [.addr d (.gpr src)]

/-- R114: `ADD d, n` completes, goes through TEMP, adds the literal mod 2^16, and leaves the flags of that addition. -/
def Obligations.AddImmediateResult : Prop :=
  ∀ (d : Gpr) (n : Nat) (s : Machine.State), ∃ t, exec (.addRI d n) s = .next t ∧
    (t.readGpr d).toNat = ((s.readGpr d).toNat + n % 65536) % 65536 ∧
    t.flags = addFlags s.flags (s.readGpr d) (BitVec.ofNat 16 n) ∧ t.temp.toNat = n % 65536 ∧
    GprsKept [d] s t ∧ FlagsKept arithFlags s t ∧ MemKept [] s t ∧ ControlKept s t ∧ t.ip = s.ip ∧
    lower (.addRI d n) = [.movi .temp (BitVec.ofNat 16 n), .addr d .temp]

/-- R115: `SUB d, s` completes, leaves the difference mod 2^16 in `d` and the flags of the subtraction, and changes nothing
else. -/
def Obligations.SubRegistersResult : Prop :=
  ∀ (d src : Gpr) (s : Machine.State), ∃ t, exec (.subRR d src) s = .next t ∧
    ((t.readGpr d).toNat : Int) = (((s.readGpr d).toNat : Int) - ((s.readGpr src).toNat : Int)) % 65536 ∧
    t.flags = subFlags s.flags (s.readGpr d) (s.readGpr src) ∧
    GprsKept [d] s t ∧ FlagsKept arithFlags s t ∧ MemKept [] s t ∧ ControlKept s t ∧ t.temp = s.temp ∧ t.ip = s.ip ∧
    lower (.subRR d src) = [.subr d (.gpr src)]

/-- R116: `SUB d, n` completes, goes through TEMP, subtracts the literal mod 2^16, and leaves the flags of that subtraction. -/
def Obligations.SubImmediateResult : Prop :=
  ∀ (d : Gpr) (n : Nat) (s : Machine.State), ∃ t, exec (.subRI d n) s = .next t ∧
    ((t.readGpr d).toNat : Int) = (((s.readGpr d).toNat : Int) - ((n % 65536 : Nat) : Int)) % 65536 ∧
    t.flags = subFlags s.flags (s.readGpr d) (BitVec.ofNat 16 n) ∧ t.temp.toNat = n % 65536 ∧
    GprsKept [d] s t ∧ FlagsKept arithFlags s t ∧ MemKept [] s t ∧ ControlKept s t ∧ t.ip = s.ip ∧
    lower (.subRI d n) = [.movi .temp (BitVec.ofNat 16 n), .subr d .temp]

/-- `CMP p, q` (R117) completes and writes ZF, SF, CF and OF as SUB would; that PF and AF keep their values is the spec's
decision D9 (log 3). -/
def Obligations.CompareWritesFourFlags : Prop :=
  ∀ (p q : Gpr) (s : Machine.State), ∃ t, exec (.cmpRR p q) s = .next t ∧
    (t.flags.zf = true ↔ s.readGpr p = s.readGpr q) ∧
    (t.flags.sf = true ↔ 32768 ≤ (((s.readGpr p).toNat : Int) - ((s.readGpr q).toNat : Int)) % 65536) ∧
    (t.flags.cf = true ↔ (s.readGpr p).toNat < (s.readGpr q).toNat) ∧
    (∀ f ∈ compareFlags, t.flags.get f = (subFlags s.flags (s.readGpr p) (s.readGpr q)).get f) ∧
    GprsKept [] s t ∧ FlagsKept compareFlags s t ∧ MemKept [] s t ∧ ControlKept s t ∧ t.temp = s.temp ∧ t.ip = s.ip

/-- `MUL s` (R118) completes, splits the exact product of AX and the operand (AX and DX as operands too) into DX:AX, and sets
CF and OF iff DX is not 0; that the other flags keep their values is the spec's decision D10 (log 4), and that `MUL DX` takes
the DX from before the write is D12 (log 6). -/
def Obligations.MultiplyExactProduct : Prop :=
  ∀ (src : Gpr) (s : Machine.State), ∃ t, exec (.mulR src) s = .next t ∧
    (t.readGpr .dx).toNat * 65536 + (t.readGpr .ax).toNat = (s.readGpr .ax).toNat * (s.readGpr src).toNat ∧
    (t.flags.cf = true ↔ t.readGpr .dx ≠ 0#16) ∧ t.flags.of = t.flags.cf ∧
    GprsKept [.ax, .dx] s t ∧ FlagsKept productFlags s t ∧ MemKept [] s t ∧ ControlKept s t ∧ t.temp = s.temp ∧ t.ip = s.ip

/-- `DIV s` with a divisor that is not 0 (R119) completes: AX is the quotient of DX:AX mod 2^16 and DX the remainder, so that
the division is exact where the quotient fits; its truncation otherwise is the spec's decision D11 (log 5), and that no flag
changes is D10 (log 4); that `DIV AX` and `DIV DX` take the divisor and the dividend from before the first write is D12
(log 6). -/
def Obligations.DivideQuotientRemainder : Prop :=
  ∀ (src : Gpr) (s : Machine.State), s.readGpr src ≠ 0#16 → ∃ t, exec (.divR src) s = .next t ∧
    (t.readGpr .ax).toNat =
      ((s.readGpr .dx).toNat * 65536 + (s.readGpr .ax).toNat) / (s.readGpr src).toNat % 65536 ∧
    (t.readGpr .dx).toNat = ((s.readGpr .dx).toNat * 65536 + (s.readGpr .ax).toNat) % (s.readGpr src).toNat ∧
    (t.readGpr .dx).toNat < (s.readGpr src).toNat ∧
    ((s.readGpr .dx).toNat < (s.readGpr src).toNat →
      (t.readGpr .ax).toNat * (s.readGpr src).toNat + (t.readGpr .dx).toNat =
        (s.readGpr .dx).toNat * 65536 + (s.readGpr .ax).toNat) ∧
    GprsKept [.ax, .dx] s t ∧ FlagsKept [] s t ∧ MemKept [] s t ∧ ControlKept s t ∧ t.temp = s.temp ∧ t.ip = s.ip

/-- DIV raises DivideByZero (R130) exactly when its divisor register holds 0, whichever register it is and whatever the quotient
(that a quotient above 16 bits is no fault is decision D11, log 5); it does so before any write; no other instruction raises it,
and DIV raises nothing else. -/
def Obligations.OnlyDivByZeroFaults : Prop :=
  (∀ (src : Gpr) (s : Machine.State), s.readGpr src = 0#16 → exec (.divR src) s = .fault (.divideByZero s)) ∧
  (∀ (i : Instr) (s : Machine.State) (e : Machine.Fault), exec i s = .fault e →
    e = .divideByZero s ∧ ∃ src, i = .divR src ∧ s.readGpr src = 0#16)

/-! ### Control transfer and placeholders -/

/-- `JMP t` (R121) completes and writes the target to IP; the step that runs it then adds 1. That the operand is a line index
and no label is the spec's decision D1 (log 10). -/
def Obligations.JumpWritesTarget : Prop :=
  (∀ (tgt : Nat) (s : Machine.State), ∃ t, exec (.jmpH tgt) s = .next t ∧ t.ip = ipw tgt ∧
    GprsKept [] s t ∧ FlagsKept [] s t ∧ MemKept [] s t ∧ ControlKept s t ∧ t.temp = s.temp) ∧
  (∀ (tgt : Nat) (line : Text) (s : Machine.State), fetchLine s = some line → decode line = .jmpH tgt →
    ∃ t, step s = .next t ∧ t.ip = ipw (ipw tgt + 1))

/-- R122: `JZ t` completes, writes the target to IP iff ZF is set, and the step then adds 1 in either case; ZF keeps its value
and is false at reset. -/
def Obligations.JumpIfZeroTestsZf : Prop :=
  (∀ (tgt : Nat) (s : Machine.State), ∃ t, exec (.jzH tgt) s = .next t ∧
    t.ip = (if s.flags.zf then ipw tgt else s.ip) ∧
    GprsKept [] s t ∧ FlagsKept [] s t ∧ MemKept [] s t ∧ ControlKept s t ∧ t.temp = s.temp ∧ lower (.jzH tgt) = [.jz tgt]) ∧
  (∀ (tgt : Nat) (line : Text) (s : Machine.State), fetchLine s = some line → decode line = .jzH tgt →
    ∃ t, step s = .next t ∧ t.ip = (if s.flags.zf then ipw (ipw tgt + 1) else ipw (s.ip + 1))) ∧
  State.reset.flags.zf = false

/-- `JNZ t` (R123) completes, writes the target to IP iff ZF is clear, and the step then adds 1 in either case; ZF is false at
reset, and MOV, MUL and DIV do not write it (MUL and DIV by the spec's decision D10, log 4). -/
def Obligations.JumpIfNotZeroTestsZf : Prop :=
  (∀ (tgt : Nat) (s : Machine.State), ∃ t, exec (.jnzH tgt) s = .next t ∧
    t.ip = (if s.flags.zf then s.ip else ipw tgt) ∧
    GprsKept [] s t ∧ FlagsKept [] s t ∧ MemKept [] s t ∧ ControlKept s t ∧ t.temp = s.temp ∧ lower (.jnzH tgt) = [.jnz tgt]) ∧
  (∀ (tgt : Nat) (line : Text) (s : Machine.State), fetchLine s = some line → decode line = .jnzH tgt →
    ∃ t, step s = .next t ∧ t.ip = (if s.flags.zf then ipw (s.ip + 1) else ipw (ipw tgt + 1))) ∧
  State.reset.flags.zf = false ∧
  (∀ (d s' : Gpr) (n : Nat), ∀ i ∈ [Instr.movRI d n, .movRR d s', .movRM d n, .movMR n s', .mulR s', .divR s'],
    ∀ s t : Machine.State, exec i s = .next t → t.flags.zf = s.flags.zf)

/-- R127: applying either placeholder changes nothing; the step that holds it returns `Ok(true)`, increments IP, and records
the placeholder. -/
def Obligations.PlaceholderIsNoOp : Prop :=
  (∀ (kind : PlaceholderKind) (text : Text) (s : Machine.State), exec (.placeholder kind text) s = .next s) ∧
  (∀ (kind : PlaceholderKind) (text line : Text) (s : Machine.State),
    fetchLine s = some line → decode line = .placeholder kind text →
    hostStep s =
      (.ok true,
        { s with
          ip := ipw (s.ip + 1)
          currentInstruction := some line
          lastMicroinstructions := lower (.placeholder kind text) }) ∧
    ∃ u, lower (.placeholder kind text) = [u] ∧ u.isPlaceholder = true)

/-- The query on micro-ops (R128) tells the placeholders, tags 12 and 13, from everything the fourteen forms lower to (the tags
are the spec's decision D18, log 26). -/
def Obligations.PlaceholderQueryTellsApart : Prop :=
  (∀ u : MicroOp, u.isPlaceholder = true ↔ u.tag = 12 ∨ u.tag = 13) ∧
  (∀ i : Instr, (∀ u ∈ lower i, u.isPlaceholder = true) ↔ i.isCore = false) ∧
  (∀ i : Instr, (∀ u ∈ lower i, u.isPlaceholder = false) ↔ i.isCore = true)

/-! ### Every instruction -/

/-- R27, R32, R35 and R150 over all instructions: an instruction that completes writes only the registers, flags and bytes its
rows of those tables list (the flag rows of CMP, MUL and DIV are decisions D9 and D10, logs 3 and 4; the second byte of a store
at the top of memory is D7, log 2; that a line which names a segment register writes none is D4, log 7), TEMP only in the
immediate forms, IP only in the jumps, and no other state. -/
def Obligations.InstructionWritesOnlyItsTable : Prop :=
  ∀ (i : Instr) (s t : Machine.State), exec i s = .next t →
    GprsKept (gprsWritten i) s t ∧ FlagsKept (flagsWritten i) s t ∧ MemKept (bytesWritten i) s t ∧ ControlKept s t ∧
    (writesTemp i = false → t.temp = s.temp) ∧ (isJump i = false → t.ip = s.ip)

/-- R96: an instruction is its micro-ops applied in list order, each to the full result of the ones before it, where a fault
skips the rest. -/
def Obligations.ExecAppliesLoweringInOrder : Prop :=
  (∀ (i : Instr) (s : Machine.State), exec i s = applyMicros (lower i) s) ∧
  (∀ s : Machine.State, applyMicros [] s = .next s) ∧
  (∀ (u : MicroOp) (us : List MicroOp) (s t : Machine.State), applyMicro u s = .next t →
    applyMicros (u :: us) s = applyMicros us t) ∧
  (∀ (u : MicroOp) (us : List MicroOp) (s : Machine.State) (e : Machine.Fault), applyMicro u s = .fault e →
    applyMicros (u :: us) s = .fault e)

/-- R153 along any run: while no line of the program is an ADD, SUB or CMP, ZF keeps its value however many steps are taken
(for MUL and DIV by the spec's decision D10, log 4). -/
def Obligations.ZeroFlagSurvivesOtherInstructions : Prop :=
  ∀ (k : Nat) (s t : Machine.State), (∀ line ∈ s.lines, Flag.zf ∉ flagsWritten (decode line)) →
    okSteps k s = some t → t.flags.zf = s.flags.zf

/-! ### The step -/

/-- R95: a step of a halted engine, or with IP out of the program, sets `halted`, changes nothing else and returns `Ok(false)`;
any other step records the line at IP and its lowering, runs the decoded instruction, and then increments IP and returns
`Ok(true)`, or returns the fault with no increment (what the two recorded fields then hold is R98's draw). -/
def Obligations.StepRunsDecodedInstruction : Prop :=
  (∀ s : Machine.State, s.halted = true ∨ s.lines.length ≤ s.ip →
    step s = .next { s with halted := true } ∧ hostStep s = (.ok false, { s with halted := true })) ∧
  (∀ (s : Machine.State) (line : Text), s.halted = false → s.lines[s.ip]? = some line →
    (∀ u, exec (decode line)
        { s with currentInstruction := some line, lastMicroinstructions := lower (decode line) } = .next u →
      step s = .next { u with ip := ipw (u.ip + 1) } ∧ hostStep s = (.ok true, { u with ip := ipw (u.ip + 1) })) ∧
    (∀ u, exec (decode line)
        { s with currentInstruction := some line, lastMicroinstructions := lower (decode line) } =
          .fault (.divideByZero u) →
      ∃ message t, step s = .fault (.divideByZero t) ∧ hostStep s = (.fault .divideByZero message, t) ∧ t.ip = u.ip))

/-- R97: after the last micro-op of a step that did not fault, IP is what they left plus 1, written through `ipw`, with no
exception for jumps: a taken jump to `tgt` makes line `ipw (ipw tgt + 1)` the next one. -/
def Obligations.IncrementAlwaysFollows : Prop :=
  ∀ (s t : Machine.State) (line : Text), fetchLine s = some line → step s = .next t →
    (∃ u, applyMicros (lower (decode line)) (recordStep s line) = .next u ∧ t = { u with ip := ipw (u.ip + 1) }) ∧
    (isJump (decode line) = false → t.ip = ipw (s.ip + 1)) ∧
    (∀ tgt, decode line = .jmpH tgt ∨ (decode line = .jzH tgt ∧ s.flags.zf = true) ∨
        (decode line = .jnzH tgt ∧ s.flags.zf = false) → t.ip = ipw (ipw tgt + 1))

/-- R38: a step that goes on sets `halted` exactly when the engine is already halted or IP is out of bounds, and a step that
faults leaves it as it was, which is false; only `reset` and `load` clear it; no instruction reads or writes it; and a halted
engine's step changes nothing. That nothing else halts, no line such as HLT, is the spec's decision D29 (log 13). -/
def Obligations.HaltedIsTerminal : Prop :=
  (∀ s t : Machine.State, step s = .next t → (t.halted = true ↔ s.halted = true ∨ s.lines.length ≤ s.ip)) ∧
  (∀ s t : Machine.State, step s = .fault (.divideByZero t) → t.halted = s.halted ∧ t.halted = false) ∧
  (∀ s : Machine.State, s.halted = true → step s = .next s) ∧
  (∀ (op : HostOp) (r : HostReply) (s t : Machine.State), hostOp op s = some (r, t) → s.halted = true →
    (t.halted = false ↔ op = .reset ∨ ∃ code, op = .load code)) ∧
  (∀ (i : Instr) (s : Machine.State) (b : Bool),
    exec i { s with halted := b } = mapResult (fun t => { t with halted := b }) (exec i s))

/-- Every step answers a next state or the one fault, never a refusal (60_exceptions.md R129, R131, R136); that a quotient above
16 bits is no fault is decision D11 (log 5), and that an access at 0xFFFFF is none rests on D7 (log 2). -/
def Obligations.StepAnswersNextOrDivFault : Prop :=
  ∀ s : Machine.State, (∃ t, step s = .next t) ∨
    (∃ t line src, step s = .fault (.divideByZero t) ∧ s.halted = false ∧ s.lines[s.ip]? = some line ∧
      decode line = .divR src ∧ s.readGpr src = 0#16)

/-- The outcome of a fault (R132): registers, flags, memory, IP, TEMP, the program store and the status bits are exactly as
before the step, and each introspection field holds its old value or the one the step would have recorded (R98, decision D14,
log 14: a statement for both outcomes of the draw). A request of the transport that steps (R93) gets the fault with an error
message, whose text is free (log 29), and the snapshot of just that state. -/
def Obligations.FaultLeavesStateUnchanged : Prop :=
  ∀ s t : Machine.State, step s = .fault (.divideByZero t) →
    t.gprs = s.gprs ∧ t.segs = s.segs ∧ t.ip = s.ip ∧ t.temp = s.temp ∧ t.flags = s.flags ∧ t.mem = s.mem ∧
    t.lines = s.lines ∧ t.labels = s.labels ∧ t.halted = s.halted ∧ t.running = s.running ∧
    ∃ line, s.lines[s.ip]? = some line ∧
      (t.currentInstruction = s.currentInstruction ∨ t.currentInstruction = some line) ∧
      (t.lastMicroinstructions = s.lastMicroinstructions ∨ t.lastMicroinstructions = lower (decode line)) ∧
      ∃ message, hostRequest .step s = some (.stepped (.fault .divideByZero message), getState t, t)

/-- A further step after a fault executes the same line and faults again (R134, R152), however often it is tried. -/
def Obligations.FaultRepeatsForever : Prop :=
  ∀ (s t : Machine.State), step s = .fault (.divideByZero t) →
    (∃ u, step t = .fault (.divideByZero u) ∧ u.ip = s.ip ∧ u.gprs = s.gprs ∧ u.flags = s.flags ∧ u.mem = s.mem) ∧
    (∀ fuel, ∃ message u, hostRun (fuel + 1) t = some (.fault .divideByZero message, u) ∧ u.ip = s.ip ∧ u.gprs = s.gprs)

/-! ### Whole-machine rules -/

/-- A step from a state that meets the invariant leaves one that does, after a fault as well (R28, R36, R42, R67, and the
memory's canonical form). That no line writes a segment register is the spec's decision D4 (log 7). -/
def Obligations.StepKeepsInvariant : Prop :=
  ∀ s : Machine.State, s.Inv →
    (∀ t, step s = .next t → t.Inv) ∧ (∀ t, step s = .fault (.divideByZero t) → t.Inv)

/-- Every host operation keeps the invariant, so it holds of every state the host can bring the machine to. That no line
writes a segment register is the spec's decision D4 (log 7), and what `load` records as labels follows D19 (log 11). -/
def Obligations.HostOperationsKeepInvariant : Prop :=
  ∀ (op : HostOp) (s t : Machine.State) (r : HostReply), s.Inv → hostOp op s = some (r, t) → t.Inv

/-- R47: registers, flags and memory change only when a step executes a line or on reset, and the program store only on `load`
and `reset`: no operation but these two changes the store, and while there is no line to execute none changes a register, a
flag, a byte of memory or an introspection field (it may change `halted` and `running`). -/
def Obligations.OnlyEngineMutatesState : Prop :=
  ∀ (op : HostOp) (s t : Machine.State) (r : HostReply), hostOp op s = some (r, t) →
    op = .reset ∨ (∃ code, op = .load code) ∨
    (t.lines = s.lines ∧ t.labels = s.labels ∧ (op = .getState → t = s) ∧
      (fetchLine s = none →
        t.gprs = s.gprs ∧ t.segs = s.segs ∧ t.temp = s.temp ∧ t.ip = s.ip ∧ t.flags = s.flags ∧ t.mem = s.mem ∧
        t.currentInstruction = s.currentInstruction ∧ t.lastMicroinstructions = s.lastMicroinstructions))

/-- TEMP is unobservable across steps (R29, R150) and in the snapshot (R103): two states that differ only in TEMP step to
results that differ at most in TEMP, and have one snapshot. -/
def Obligations.TempIsUnobservable : Prop :=
  (∀ (s : Machine.State) (v : Word),
    mapResult (fun t => t.withTemp 0#16) (step (s.withTemp v)) = mapResult (fun t => t.withTemp 0#16) (step s)) ∧
  (∀ (s : Machine.State) (v : Word), getState (s.withTemp v) = getState s)

/-- The segment registers, the label table, `running`, TF, IF and DF steer nothing (R28, R36, R43, R60; labels by decision D1,
log 10; segment registers, which no line can name, by D4, log 7): a step commutes with replacing them. -/
def Obligations.InertStateIsUnobservable : Prop :=
  ∀ (s : Machine.State) (x : Inert), step (s.withInert x) = mapResult (fun t => t.withInert x) (step s)

/-! ### Runs -/

/-- Line `k + 1` that holds `JMP k` jumps to itself and loops forever (R121, R151): every step leaves the state but for what it
records. Where IP wraps, `k + 1` must be an index that IP can hold; where it does not, every `k` is covered (log 1). -/
def Obligations.JumpBackLoopsInPlace : Prop :=
  ∀ (s : Machine.State) (line : Text) (k : Nat), s.halted = false → s.ip = k + 1 →
    (Config.ipWrap16 = true → k + 1 < 65536) →
    s.lines[k + 1]? = some line → decode line = .jmpH k →
    ∀ n, okSteps (n + 1) s =
      some { s with currentInstruction := some line, lastMicroinstructions := [.jmp k] }

/-- `run` has no step budget (R101): from such a line it never returns, whatever the fuel (the lines as in the statement before,
log 1). -/
def Obligations.RunOfTightLoopNeverReturns : Prop :=
  ∀ (s : Machine.State) (line : Text) (k : Nat), s.halted = false → s.ip = k + 1 →
    (Config.ipWrap16 = true → k + 1 < 65536) →
    s.lines[k + 1]? = some line → decode line = .jmpH k → ∀ fuel, hostRun fuel s = none

/-- `run` is the iteration of `step` (R100, R101): it returns Done exactly after some number of steps that each return
`Ok(true)` and one that returns `Ok(false)`; it then leaves `halted` true, and `running` false by decision D15 (log 15). -/
def Obligations.RunIsIteratedStep : Prop :=
  ∀ (fuel : Nat) (s t : Machine.State), hostRun fuel s = some (.done, t) ↔
    ∃ k u, k < fuel ∧ okSteps k { s with running := true } = some u ∧ fetchLine u = none ∧
      t = { u with halted := true, running := false }

/-- A `run` that faults (R100) got there by steps that each returned `Ok(true)`, and stands at a DIV whose divisor is 0, with
`halted` false. What `running` then holds is free (log 15), and so is the message (log 29); that only a zero divisor faults, no
large quotient, is decision D11 (log 5). -/
def Obligations.RunFaultStandsAtDiv : Prop :=
  ∀ (fuel : Nat) (s t : Machine.State) (kind : FaultKind) (message : Text),
    hostRun fuel s = some (.fault kind message, t) →
    ∃ k u v, k < fuel ∧ okSteps k { s with running := true } = some u ∧ step u = .fault (.divideByZero v) ∧
      t.halted = false ∧ t.ip = u.ip ∧ t.gprs = u.gprs ∧ t.mem = u.mem ∧
      ∃ line src, t.lines[t.ip]? = some line ∧ decode line = .divR src ∧ t.readGpr src = 0#16

/-- R105: from every state the steps complete, fault or go on for ever, one of the three and no two; a completed run stays
completed, a faulted one faults again on the same line; and `run` returns Done, returns the fault or never returns in exactly
those cases. -/
def Obligations.ExecutionEndsInOneOfThreeWays : Prop :=
  ∀ s : Machine.State,
    (Completes s ∨ Faults s ∨ Diverges s) ∧
    ¬(Completes s ∧ Faults s) ∧ ¬(Completes s ∧ Diverges s) ∧ ¬(Faults s ∧ Diverges s) ∧
    (∀ t, hostStep s = (.ok false, t) → t.halted = true ∧ hostStep t = (.ok false, t)) ∧
    (∀ message t, hostStep s = (.fault .divideByZero message, t) →
      t.ip = s.ip ∧ ∃ message' u, hostStep t = (.fault .divideByZero message', u)) ∧
    (Completes s ↔ ∃ fuel t, hostRun fuel s = some (.done, t)) ∧
    (Faults s ↔ ∃ fuel message t, hostRun fuel s = some (.fault .divideByZero message, t)) ∧
    (Diverges s ↔ ∀ fuel, hostRun fuel s = none)

/-- The snapshot (R103; status by decision D16, log 24): its window is bytes 0 to 255 of memory, its views and status are
derived, a placeholder's description has its fixed text in front (R82), and reading it changes nothing (R104). -/
def Obligations.SnapshotShowsState : Prop :=
  ∀ s : Machine.State,
    (getState s).gprs = s.gprs ∧ (getState s).segs = s.segs ∧ (getState s).flags = s.flags ∧ (getState s).ip = s.ip ∧
    (getState s).memory.length = 256 ∧ (∀ a, a < 256 → (getState s).memory[a]? = some (s.mem.read a)) ∧
    (getState s).regs8 =
      { ah := s.readView .ah, al := s.readView .al, bh := s.readView .bh, bl := s.readView .bl
        ch := s.readView .ch, cl := s.readView .cl, dh := s.readView .dh, dl := s.readView .dl } ∧
    (getState s).currentInstruction = s.currentInstruction ∧
    (getState s).microinstructions = s.lastMicroinstructions.map description ∧
    (∀ line, description (.unimpl line) = "Unimplemented: ".toList ++ line) ∧
    (∀ msg, description (.malformed msg) = "Error: ".toList ++ msg) ∧
    ((getState s).status = .halted ↔ s.halted = true) ∧
    ((getState s).status = .running ↔ s.halted = false ∧ s.running = true) ∧
    hostOp .getState s = some (.snapshot (getState s), s)

/-! ### Text and encoding -/

/-- Decoding undoes encoding for every well-formed instruction (R84, with R70 to R78): every form at every operand value, and
every placeholder. -/
def Obligations.DecodeEncodeRoundTrip : Prop :=
  ∀ i : Instr, i.wellFormed = true → decode (encode i) = i

/-- The same through the table's words (log 20): an instruction whose characters fit eight bits, as all of the fourteen forms
do, decodes from its word. -/
def Obligations.TableWordRoundTrip : Prop :=
  (∀ i : Instr, i.wellFormed = true → (∀ c ∈ encode i, c.toNat < 256) →
    decodeTableWord (encodedBits i) (encodedWord i) = some i) ∧
  (∀ i : Instr, i.isCore = true → ∀ c ∈ encode i, c.toNat < 256)

/-- `decode` agrees with the opcode table's "match" column and with R79, for every line (the boundary between the two kinds is
decision D6, log 26): a form exactly where one fits, MALFORMED exactly in the three cases, UNIMPL everywhere else. -/
def Obligations.DecodeFollowsFormTable : Prop :=
  ∀ line : Text,
    ((decode line).isCore = true ↔ fitsForm line = true) ∧
    (decode line = .placeholder .malformed line ↔ fitsMalformed line = true) ∧
    (decode line = .placeholder .unimpl line ↔ fitsForm line = false ∧ fitsMalformed line = false)

/-- Mnemonics, register names and hexadecimal digits are case-insensitive (R70, R71, R73, R88): an admitted line in capitals
decodes to the same instruction. -/
def Obligations.DecodeIgnoresCase : Prop :=
  ∀ line : Text, fitsForm line = true → decode (upper line) = decode line

/-- What `parse` stores (R67): every line is stripped, non-empty and free of LF, and every label marks an index of the program
or its end, each name once (label grammar by decision D19, log 11). -/
def Obligations.ParseStoresStrippedLines : Prop :=
  ∀ code : Text,
    (∀ line ∈ (parseProgram code).1, isStoredLine line = true) ∧
    (∀ e ∈ (parseProgram code).2, e.2 ≤ (parseProgram code).1.length) ∧
    ((parseProgram code).2.map Prod.fst).Nodup

/-- A program text written from instructions of the fourteen forms loads to exactly those instructions, one line each, with no
labels (R66 to R68, R84). -/
def Obligations.ProgramTextLoadsItsInstructions : Prop :=
  ∀ (is : List Instr) (s : Machine.State), (∀ i ∈ is, i.isCore = true) →
    (hostLoad (programText is) s).lines.map decode = is ∧ (hostLoad (programText is) s).labels = []

/-- A few words written out from the table's spellings decode to the instructions they stand for (R90; log 20): `MUL CX`,
`JMP 10`, `MOV AX,5`, `add ax, 3`, and `NOP`, `JMP loop` as the two kinds of placeholder. -/
def Obligations.SpelledWordsDecode : Prop :=
  decodeTableWord 48 0x5843204C554D = some (.mulR .cx) ∧
  decodeTableWord 48 0x303120504D4A = some (.jmpH 16) ∧
  decodeTableWord 64 0x352C584120564F4D = some (.movRI .ax 5) ∧
  decodeTableWord 72 0x33202C786120646461 = some (.addRI .ax 3) ∧
  decodeTableWord 24 0x504F4E = some (.placeholder .unimpl ['N', 'O', 'P']) ∧
  decodeTableWord 64 0x706F6F6C20504D4A = some (.placeholder .malformed ['J', 'M', 'P', ' ', 'l', 'o', 'o', 'p'])
end

