-- ==== Sys2Proof/Laws/State.lean ====
section
/-! SUPPORT. One lemma per field per update of the state, each true by rfl, so that no proof unfolds a record update. -/

namespace Sys2Proof.Machine

/-! ### State.writeGpr -/

@[simp] theorem State.writeGpr_gprs (s : State) (r : Gpr) (v : Word) : (s.writeGpr r v).gprs = s.gprs.set r v := rfl
@[simp] theorem State.writeGpr_segs (s : State) (r : Gpr) (v : Word) : (s.writeGpr r v).segs = s.segs := rfl
@[simp] theorem State.writeGpr_ip (s : State) (r : Gpr) (v : Word) : (s.writeGpr r v).ip = s.ip := rfl
@[simp] theorem State.writeGpr_temp (s : State) (r : Gpr) (v : Word) : (s.writeGpr r v).temp = s.temp := rfl
@[simp] theorem State.writeGpr_flags (s : State) (r : Gpr) (v : Word) : (s.writeGpr r v).flags = s.flags := rfl
@[simp] theorem State.writeGpr_mem (s : State) (r : Gpr) (v : Word) : (s.writeGpr r v).mem = s.mem := rfl
@[simp] theorem State.writeGpr_lines (s : State) (r : Gpr) (v : Word) : (s.writeGpr r v).lines = s.lines := rfl
@[simp] theorem State.writeGpr_labels (s : State) (r : Gpr) (v : Word) : (s.writeGpr r v).labels = s.labels := rfl
@[simp] theorem State.writeGpr_halted (s : State) (r : Gpr) (v : Word) : (s.writeGpr r v).halted = s.halted := rfl
@[simp] theorem State.writeGpr_running (s : State) (r : Gpr) (v : Word) : (s.writeGpr r v).running = s.running := rfl
@[simp] theorem State.writeGpr_currentInstruction (s : State) (r : Gpr) (v : Word) : (s.writeGpr r v).currentInstruction = s.currentInstruction := rfl
@[simp] theorem State.writeGpr_lastMicroinstructions (s : State) (r : Gpr) (v : Word) : (s.writeGpr r v).lastMicroinstructions = s.lastMicroinstructions := rfl
@[simp] theorem State.writeGpr_draws (s : State) (r : Gpr) (v : Word) : (s.writeGpr r v).draws = s.draws := rfl

/-! ### State.writeIp -/

@[simp] theorem State.writeIp_gprs (s : State) (v : Nat) : (s.writeIp v).gprs = s.gprs := rfl
@[simp] theorem State.writeIp_segs (s : State) (v : Nat) : (s.writeIp v).segs = s.segs := rfl
@[simp] theorem State.writeIp_ip (s : State) (v : Nat) : (s.writeIp v).ip = ipw v := rfl
@[simp] theorem State.writeIp_temp (s : State) (v : Nat) : (s.writeIp v).temp = s.temp := rfl
@[simp] theorem State.writeIp_flags (s : State) (v : Nat) : (s.writeIp v).flags = s.flags := rfl
@[simp] theorem State.writeIp_mem (s : State) (v : Nat) : (s.writeIp v).mem = s.mem := rfl
@[simp] theorem State.writeIp_lines (s : State) (v : Nat) : (s.writeIp v).lines = s.lines := rfl
@[simp] theorem State.writeIp_labels (s : State) (v : Nat) : (s.writeIp v).labels = s.labels := rfl
@[simp] theorem State.writeIp_halted (s : State) (v : Nat) : (s.writeIp v).halted = s.halted := rfl
@[simp] theorem State.writeIp_running (s : State) (v : Nat) : (s.writeIp v).running = s.running := rfl
@[simp] theorem State.writeIp_currentInstruction (s : State) (v : Nat) : (s.writeIp v).currentInstruction = s.currentInstruction := rfl
@[simp] theorem State.writeIp_lastMicroinstructions (s : State) (v : Nat) : (s.writeIp v).lastMicroinstructions = s.lastMicroinstructions := rfl
@[simp] theorem State.writeIp_draws (s : State) (v : Nat) : (s.writeIp v).draws = s.draws := rfl

/-! ### State.writeDirect -/

@[simp] theorem State.writeDirect_gprs (s : State) (a : Nat) (v : Word) : (s.writeDirect a v).gprs = s.gprs := rfl
@[simp] theorem State.writeDirect_segs (s : State) (a : Nat) (v : Word) : (s.writeDirect a v).segs = s.segs := rfl
@[simp] theorem State.writeDirect_ip (s : State) (a : Nat) (v : Word) : (s.writeDirect a v).ip = s.ip := rfl
@[simp] theorem State.writeDirect_temp (s : State) (a : Nat) (v : Word) : (s.writeDirect a v).temp = s.temp := rfl
@[simp] theorem State.writeDirect_flags (s : State) (a : Nat) (v : Word) : (s.writeDirect a v).flags = s.flags := rfl
@[simp] theorem State.writeDirect_mem (s : State) (a : Nat) (v : Word) : (s.writeDirect a v).mem = memWrite s.mem a 2 v.toNat := rfl
@[simp] theorem State.writeDirect_lines (s : State) (a : Nat) (v : Word) : (s.writeDirect a v).lines = s.lines := rfl
@[simp] theorem State.writeDirect_labels (s : State) (a : Nat) (v : Word) : (s.writeDirect a v).labels = s.labels := rfl
@[simp] theorem State.writeDirect_halted (s : State) (a : Nat) (v : Word) : (s.writeDirect a v).halted = s.halted := rfl
@[simp] theorem State.writeDirect_running (s : State) (a : Nat) (v : Word) : (s.writeDirect a v).running = s.running := rfl
@[simp] theorem State.writeDirect_currentInstruction (s : State) (a : Nat) (v : Word) : (s.writeDirect a v).currentInstruction = s.currentInstruction := rfl
@[simp] theorem State.writeDirect_lastMicroinstructions (s : State) (a : Nat) (v : Word) : (s.writeDirect a v).lastMicroinstructions = s.lastMicroinstructions := rfl
@[simp] theorem State.writeDirect_draws (s : State) (a : Nat) (v : Word) : (s.writeDirect a v).draws = s.draws := rfl

/-! ### State.jumpTo -/

@[simp] theorem State.jumpTo_gprs (s : State) (t : Nat) : (s.jumpTo t).gprs = s.gprs := rfl
@[simp] theorem State.jumpTo_segs (s : State) (t : Nat) : (s.jumpTo t).segs = s.segs := rfl
@[simp] theorem State.jumpTo_ip (s : State) (t : Nat) : (s.jumpTo t).ip = ipw t := rfl
@[simp] theorem State.jumpTo_temp (s : State) (t : Nat) : (s.jumpTo t).temp = s.temp := rfl
@[simp] theorem State.jumpTo_flags (s : State) (t : Nat) : (s.jumpTo t).flags = s.flags := rfl
@[simp] theorem State.jumpTo_mem (s : State) (t : Nat) : (s.jumpTo t).mem = s.mem := rfl
@[simp] theorem State.jumpTo_lines (s : State) (t : Nat) : (s.jumpTo t).lines = s.lines := rfl
@[simp] theorem State.jumpTo_labels (s : State) (t : Nat) : (s.jumpTo t).labels = s.labels := rfl
@[simp] theorem State.jumpTo_halted (s : State) (t : Nat) : (s.jumpTo t).halted = s.halted := rfl
@[simp] theorem State.jumpTo_running (s : State) (t : Nat) : (s.jumpTo t).running = s.running := rfl
@[simp] theorem State.jumpTo_currentInstruction (s : State) (t : Nat) : (s.jumpTo t).currentInstruction = s.currentInstruction := rfl
@[simp] theorem State.jumpTo_lastMicroinstructions (s : State) (t : Nat) : (s.jumpTo t).lastMicroinstructions = s.lastMicroinstructions := rfl
@[simp] theorem State.jumpTo_draws (s : State) (t : Nat) : (s.jumpTo t).draws = s.draws := rfl

/-! ### State.withTemp -/

@[simp] theorem State.withTemp_gprs (s : State) (v : Word) : (s.withTemp v).gprs = s.gprs := rfl
@[simp] theorem State.withTemp_segs (s : State) (v : Word) : (s.withTemp v).segs = s.segs := rfl
@[simp] theorem State.withTemp_ip (s : State) (v : Word) : (s.withTemp v).ip = s.ip := rfl
@[simp] theorem State.withTemp_temp (s : State) (v : Word) : (s.withTemp v).temp = v := rfl
@[simp] theorem State.withTemp_flags (s : State) (v : Word) : (s.withTemp v).flags = s.flags := rfl
@[simp] theorem State.withTemp_mem (s : State) (v : Word) : (s.withTemp v).mem = s.mem := rfl
@[simp] theorem State.withTemp_lines (s : State) (v : Word) : (s.withTemp v).lines = s.lines := rfl
@[simp] theorem State.withTemp_labels (s : State) (v : Word) : (s.withTemp v).labels = s.labels := rfl
@[simp] theorem State.withTemp_halted (s : State) (v : Word) : (s.withTemp v).halted = s.halted := rfl
@[simp] theorem State.withTemp_running (s : State) (v : Word) : (s.withTemp v).running = s.running := rfl
@[simp] theorem State.withTemp_currentInstruction (s : State) (v : Word) : (s.withTemp v).currentInstruction = s.currentInstruction := rfl
@[simp] theorem State.withTemp_lastMicroinstructions (s : State) (v : Word) : (s.withTemp v).lastMicroinstructions = s.lastMicroinstructions := rfl
@[simp] theorem State.withTemp_draws (s : State) (v : Word) : (s.withTemp v).draws = s.draws := rfl

/-! ### State.withMem -/

@[simp] theorem State.withMem_gprs (s : State) (m : Memory) : (s.withMem m).gprs = s.gprs := rfl
@[simp] theorem State.withMem_segs (s : State) (m : Memory) : (s.withMem m).segs = s.segs := rfl
@[simp] theorem State.withMem_ip (s : State) (m : Memory) : (s.withMem m).ip = s.ip := rfl
@[simp] theorem State.withMem_temp (s : State) (m : Memory) : (s.withMem m).temp = s.temp := rfl
@[simp] theorem State.withMem_flags (s : State) (m : Memory) : (s.withMem m).flags = s.flags := rfl
@[simp] theorem State.withMem_mem (s : State) (m : Memory) : (s.withMem m).mem = m := rfl
@[simp] theorem State.withMem_lines (s : State) (m : Memory) : (s.withMem m).lines = s.lines := rfl
@[simp] theorem State.withMem_labels (s : State) (m : Memory) : (s.withMem m).labels = s.labels := rfl
@[simp] theorem State.withMem_halted (s : State) (m : Memory) : (s.withMem m).halted = s.halted := rfl
@[simp] theorem State.withMem_running (s : State) (m : Memory) : (s.withMem m).running = s.running := rfl
@[simp] theorem State.withMem_currentInstruction (s : State) (m : Memory) : (s.withMem m).currentInstruction = s.currentInstruction := rfl
@[simp] theorem State.withMem_lastMicroinstructions (s : State) (m : Memory) : (s.withMem m).lastMicroinstructions = s.lastMicroinstructions := rfl
@[simp] theorem State.withMem_draws (s : State) (m : Memory) : (s.withMem m).draws = s.draws := rfl

/-! ### haltStep -/

@[simp] theorem haltStep_gprs (s : State) : (haltStep s).gprs = s.gprs := rfl
@[simp] theorem haltStep_segs (s : State) : (haltStep s).segs = s.segs := rfl
@[simp] theorem haltStep_ip (s : State) : (haltStep s).ip = s.ip := rfl
@[simp] theorem haltStep_temp (s : State) : (haltStep s).temp = s.temp := rfl
@[simp] theorem haltStep_flags (s : State) : (haltStep s).flags = s.flags := rfl
@[simp] theorem haltStep_mem (s : State) : (haltStep s).mem = s.mem := rfl
@[simp] theorem haltStep_lines (s : State) : (haltStep s).lines = s.lines := rfl
@[simp] theorem haltStep_labels (s : State) : (haltStep s).labels = s.labels := rfl
@[simp] theorem haltStep_halted (s : State) : (haltStep s).halted = true := rfl
@[simp] theorem haltStep_running (s : State) : (haltStep s).running = s.running := rfl
@[simp] theorem haltStep_currentInstruction (s : State) : (haltStep s).currentInstruction = s.currentInstruction := rfl
@[simp] theorem haltStep_lastMicroinstructions (s : State) : (haltStep s).lastMicroinstructions = s.lastMicroinstructions := rfl
@[simp] theorem haltStep_draws (s : State) : (haltStep s).draws = s.draws := rfl

/-! ### recordStep -/

@[simp] theorem recordStep_gprs (s : State) (line : Text) : (recordStep s line).gprs = s.gprs := rfl
@[simp] theorem recordStep_segs (s : State) (line : Text) : (recordStep s line).segs = s.segs := rfl
@[simp] theorem recordStep_ip (s : State) (line : Text) : (recordStep s line).ip = s.ip := rfl
@[simp] theorem recordStep_temp (s : State) (line : Text) : (recordStep s line).temp = s.temp := rfl
@[simp] theorem recordStep_flags (s : State) (line : Text) : (recordStep s line).flags = s.flags := rfl
@[simp] theorem recordStep_mem (s : State) (line : Text) : (recordStep s line).mem = s.mem := rfl
@[simp] theorem recordStep_lines (s : State) (line : Text) : (recordStep s line).lines = s.lines := rfl
@[simp] theorem recordStep_labels (s : State) (line : Text) : (recordStep s line).labels = s.labels := rfl
@[simp] theorem recordStep_halted (s : State) (line : Text) : (recordStep s line).halted = s.halted := rfl
@[simp] theorem recordStep_running (s : State) (line : Text) : (recordStep s line).running = s.running := rfl
@[simp] theorem recordStep_currentInstruction (s : State) (line : Text) : (recordStep s line).currentInstruction = some line := rfl
@[simp] theorem recordStep_lastMicroinstructions (s : State) (line : Text) : (recordStep s line).lastMicroinstructions = lower (decode line) := rfl
@[simp] theorem recordStep_draws (s : State) (line : Text) : (recordStep s line).draws = s.draws := rfl

/-! ### advanceIp -/

@[simp] theorem advanceIp_gprs (s : State) : (advanceIp s).gprs = s.gprs := rfl
@[simp] theorem advanceIp_segs (s : State) : (advanceIp s).segs = s.segs := rfl
@[simp] theorem advanceIp_ip (s : State) : (advanceIp s).ip = ipw (s.ip + 1) := rfl
@[simp] theorem advanceIp_temp (s : State) : (advanceIp s).temp = s.temp := rfl
@[simp] theorem advanceIp_flags (s : State) : (advanceIp s).flags = s.flags := rfl
@[simp] theorem advanceIp_mem (s : State) : (advanceIp s).mem = s.mem := rfl
@[simp] theorem advanceIp_lines (s : State) : (advanceIp s).lines = s.lines := rfl
@[simp] theorem advanceIp_labels (s : State) : (advanceIp s).labels = s.labels := rfl
@[simp] theorem advanceIp_halted (s : State) : (advanceIp s).halted = s.halted := rfl
@[simp] theorem advanceIp_running (s : State) : (advanceIp s).running = s.running := rfl
@[simp] theorem advanceIp_currentInstruction (s : State) : (advanceIp s).currentInstruction = s.currentInstruction := rfl
@[simp] theorem advanceIp_lastMicroinstructions (s : State) : (advanceIp s).lastMicroinstructions = s.lastMicroinstructions := rfl
@[simp] theorem advanceIp_draws (s : State) : (advanceIp s).draws = s.draws := rfl

/-! ### Reading registers after an update -/

@[simp] theorem readGpr_writeIp (s : State) (v : Nat) (r : Gpr) : (s.writeIp v).readGpr r = s.readGpr r := rfl
@[simp] theorem readGpr_jumpTo (s : State) (t : Nat) (r : Gpr) : (s.jumpTo t).readGpr r = s.readGpr r := rfl
@[simp] theorem readGpr_writeDirect (s : State) (a : Nat) (v : Word) (r : Gpr) :
    (s.writeDirect a v).readGpr r = s.readGpr r := rfl
@[simp] theorem readGpr_recordStep (s : State) (line : Text) (r : Gpr) : (recordStep s line).readGpr r = s.readGpr r := rfl
@[simp] theorem readGpr_haltStep (s : State) (r : Gpr) : (haltStep s).readGpr r = s.readGpr r := rfl
@[simp] theorem readGpr_advanceIp (s : State) (r : Gpr) : (advanceIp s).readGpr r = s.readGpr r := rfl

end Sys2Proof.Machine
end

