-- ==== Sys2Proof/Laws/Registers.lean ====
section
/-! SUPPORT. Registers and IP: read after write, and what `ipw` does. -/

namespace Sys2Proof.Machine

@[simp] theorem GprFile.get_set_same (g : GprFile) (r : Gpr) (v : Word) : (g.set r v).get r = v := by
  cases r <;> rfl

theorem GprFile.get_set_other (g : GprFile) (r r' : Gpr) (v : Word) (h : r' ≠ r) : (g.set r v).get r' = g.get r' := by
  cases r <;> cases r' <;> first | rfl | exact absurd rfl h

@[simp] theorem GprFile.set_get (g : GprFile) (r : Gpr) : g.set r (g.get r) = g := by
  cases r <;> rfl

@[simp] theorem SegFile.get_set_same (g : SegFile) (r : Seg) (v : Word) : (g.set r v).get r = v := by
  cases r <;> rfl

theorem SegFile.get_set_other (g : SegFile) (r r' : Seg) (v : Word) (h : r' ≠ r) : (g.set r v).get r' = g.get r' := by
  cases r <;> cases r' <;> first | rfl | exact absurd rfl h

@[simp] theorem readGpr_writeGpr_same (s : State) (r : Gpr) (v : Word) : (s.writeGpr r v).readGpr r = v :=
  GprFile.get_set_same ..

theorem readGpr_writeGpr_other (s : State) (r r' : Gpr) (v : Word) (h : r' ≠ r) :
    (s.writeGpr r v).readGpr r' = s.readGpr r' :=
  GprFile.get_set_other _ _ _ _ h

theorem gprsKept_writeGpr (s : State) (r : Gpr) (v : Word) : GprsKept [r] s (s.writeGpr r v) := by
  intro r' h
  exact readGpr_writeGpr_other _ _ _ _ (by simpa using h)

/-- IP written under IP_WRAP16 fits 16 bits. -/
theorem ipw_lt_of_wrap (v : Nat) (h : Config.ipWrap16 = true) : ipw v < 65536 := by
  unfold ipw
  split
  · assumption
  · exact Nat.mod_lt _ (by decide)

/-- A value below 2^16 is written to IP as it is, under both settings of IP_WRAP16. -/
theorem ipw_of_lt (v : Nat) (h : v < 65536) : ipw v = v := if_pos h

end Sys2Proof.Machine
end

