-- ==== Sys2Proof/Laws/Flags.lean ====
section
/-! SUPPORT. Which flags each flag computation keeps, and bit 15 in terms of numbers. -/

namespace Sys2Proof.Machine

theorem addFlags_kept (f : Flags) (a b : Word) : ∀ g, g ∉ arithFlags → (addFlags f a b).get g = f.get g := by
  intro g hg
  cases g <;> first | rfl | exact absurd (by decide) hg

theorem subFlags_kept (f : Flags) (a b : Word) : ∀ g, g ∉ arithFlags → (subFlags f a b).get g = f.get g := by
  intro g hg
  cases g <;> first | rfl | exact absurd (by decide) hg

theorem cmpFlags_kept (f : Flags) (a b : Word) : ∀ g, g ∉ compareFlags → (cmpFlags f a b).get g = f.get g := by
  intro g hg
  cases g <;> first | rfl | exact absurd (by decide) hg

theorem mulFlags_kept (f : Flags) (high : Word) : ∀ g, g ∉ productFlags → (mulFlags f high).get g = f.get g := by
  intro g hg
  cases g <;> first | rfl | exact absurd (by decide) hg

/-- Bit 15 of a word says whether it is at least 2^15. -/
theorem bit15_iff (v : Word) : v.getLsbD 15 = true ↔ 32768 ≤ v.toNat := by
  have h := v.isLt
  rw [BitVec.getLsbD, Nat.testBit_eq_decide_div_mod_eq]
  simp
  omega

/-- Masking with 0x8000 asks for bit 15. -/
theorem mask15_iff (v : Word) : v &&& 0x8000#16 ≠ 0#16 ↔ v.getLsbD 15 = true := by
  constructor
  · intro h
    by_contra hb
    refine h (BitVec.eq_of_getLsbD_eq fun i hi => ?_)
    by_cases h15 : i = 15
    · subst h15
      simp [Bool.not_eq_true] at hb
      simp [hb]
    · have : (0x8000#16).getLsbD i = false := by
        have : ∀ i : Fin 16, i.val ≠ 15 → (0x8000#16).getLsbD i.val = false := by decide
        exact this ⟨i, hi⟩ h15
      simp [this]
  · intro h h0
    have := congrArg (fun v => BitVec.getLsbD v 15) h0
    rw [BitVec.getLsbD_eq_getElem (by decide)] at h
    simp [h] at this

end Sys2Proof.Machine
end

