-- ==== Sys2Proof/Laws/Text.lean ====
section
/-! SUPPORT. Text: stripping, splitting, upper case, and the spelling and reading of numbers. -/

namespace Sys2Proof.Machine

/-! ### Stripping -/

/-- A text whose first and last characters are no whitespace is stripped already. -/
theorem strip_eq_self (s : Text) (hh : ∀ c, s.head? = some c → isSpace c = false)
    (hl : ∀ c, s.getLast? = some c → isSpace c = false) : strip s = s := by
  have h1 : s.dropWhile isSpace = s := by
    cases s with
    | nil => rfl
    | cons c cs => simp [List.dropWhile, hh c rfl]
  have h2 : s.reverse.dropWhile isSpace = s.reverse := by
    cases hr : s.reverse with
    | nil => rfl
    | cons c cs =>
      have : s.getLast? = some c := by rw [← List.head?_reverse, hr]; rfl
      simp [List.dropWhile, hl c this]
  unfold strip
  rw [h1, h2, List.reverse_reverse]

/-- A text with no whitespace is stripped already. -/
theorem strip_of_no_space (s : Text) (h : ∀ c ∈ s, isSpace c = false) : strip s = s :=
  strip_eq_self s (fun c hc => h c (List.mem_of_head? hc)) (fun c hc => h c (List.mem_of_getLast? hc))

theorem mem_dropWhile {α : Type} {p : α → Bool} {l : List α} {x : α} (h : x ∈ l.dropWhile p) : x ∈ l :=
  (List.dropWhile_sublist p).subset h

/-- Stripping keeps only characters of the text. -/
theorem mem_of_mem_strip {s : Text} {c : Char} (h : c ∈ strip s) : c ∈ s := by
  unfold strip at h
  have h1 := mem_dropWhile (List.mem_reverse.1 h)
  exact mem_dropWhile (List.mem_reverse.1 h1)

theorem head?_dropWhile_not {α : Type} (p : α → Bool) (l : List α) (c : α) (h : (l.dropWhile p).head? = some c) :
    p c = false := by
  induction l with
  | nil => cases h
  | cons x xs ih =>
    by_cases hx : p x
    · rw [List.dropWhile_cons_of_pos hx] at h
      exact ih h
    · rw [List.dropWhile_cons_of_neg hx] at h
      cases h
      simpa using hx

/-- The last character of a stripped text is no whitespace. -/
theorem getLast?_strip (s : Text) (c : Char) (h : (strip s).getLast? = some c) : isSpace c = false := by
  unfold strip at h
  rw [List.getLast?_reverse] at h
  exact head?_dropWhile_not _ _ _ h

theorem getLast?_dropWhile {α : Type} (p : α → Bool) (l : List α) (h : l.dropWhile p ≠ []) :
    (l.dropWhile p).getLast? = l.getLast? := by
  obtain ⟨pre, hpre⟩ := List.dropWhile_suffix (l := l) p
  conv_rhs => rw [← hpre]
  rw [List.getLast?_append]
  cases hd : (l.dropWhile p).getLast? with
  | none => exact absurd (List.getLast?_eq_none_iff.1 hd) h
  | some x => rfl

/-- The first character of a stripped text is no whitespace. -/
theorem head?_strip (s : Text) (c : Char) (h : (strip s).head? = some c) : isSpace c = false := by
  unfold strip at h
  rw [List.head?_reverse] at h
  have hne : (s.dropWhile isSpace).reverse.dropWhile isSpace ≠ [] := by
    intro h0
    rw [h0] at h
    cases h
  rw [getLast?_dropWhile _ _ hne, List.getLast?_reverse] at h
  exact head?_dropWhile_not _ _ _ h

/-- Stripping twice is stripping once. -/
theorem strip_strip (s : Text) : strip (strip s) = strip s :=
  strip_eq_self _ (head?_strip s) (getLast?_strip s)

/-! ### Splitting -/

/-- Splitting a text without the separator gives the text. -/
theorem splitAt_of_not_mem (c : Char) (s : Text) (h : c ∉ s) : splitAt c s = [s] := by
  induction s with
  | nil => rfl
  | cons x xs ih =>
    have hx : x ≠ c := fun e => h (by simp [e])
    rw [splitAt, if_neg hx, ih (fun hm => h (by simp [hm]))]

/-- The first piece of a text ends at the first separator. -/
theorem splitAt_append (c : Char) (s rest : Text) (h : c ∉ s) :
    splitAt c (s ++ c :: rest) = s :: splitAt c rest := by
  induction s with
  | nil => simp [splitAt]
  | cons x xs ih =>
    have hx : x ≠ c := fun e => h (by simp [e])
    rw [List.cons_append, splitAt, if_neg hx, ih (fun hm => h (by simp [hm]))]

/-- No piece of a split text holds the separator, and every piece holds only characters of the text. -/
theorem mem_splitAt (c : Char) (s : Text) : ∀ piece ∈ splitAt c s, c ∉ piece ∧ ∀ x ∈ piece, x ∈ s := by
  induction s with
  | nil => intro p hp; simp [splitAt] at hp; simp [hp]
  | cons x xs ih =>
    intro p hp
    rw [splitAt] at hp
    split at hp
    · rcases List.mem_cons.1 hp with rfl | hp
      · simp
      · exact ⟨(ih p hp).1, fun y hy => List.mem_cons_of_mem _ ((ih p hp).2 y hy)⟩
    · rename_i hx
      split at hp
      · simp only [List.mem_singleton] at hp
        subst hp
        exact ⟨by simpa using Ne.symm hx, by simp⟩
      · rename_i q qs hq
        rcases List.mem_cons.1 hp with rfl | hp
        · obtain ⟨h1, h2⟩ := ih q (by rw [hq]; simp)
          refine ⟨by simpa [Ne.symm hx] using h1, ?_⟩
          intro y hy
          rcases List.mem_cons.1 hy with rfl | hy
          · simp
          · exact List.mem_cons_of_mem _ (h2 y hy)
        · obtain ⟨h1, h2⟩ := ih p (by rw [hq]; exact List.mem_cons_of_mem _ hp)
          exact ⟨h1, fun y hy => List.mem_cons_of_mem _ (h2 y hy)⟩

/-! ### Register names -/

@[simp] theorem regOperand_gprName (r : Gpr) : regOperand (gprName r) = some r := by
  cases r <;> decide

theorem regOperand_some {o : Text} {r : Gpr} (h : regOperand o = some r) : upper o = gprName r := by
  unfold regOperand at h
  have := List.find?_some h
  simpa using Eq.symm (by simpa using this)

/-! ### Numbers -/

/-- The digit characters below 16. -/
theorem digitChar_cases (d : Nat) (h : d < 16) :
    hexDigit (digitChar d) = some d ∧ (d < 10 → decDigit (digitChar d) = some d) ∧ isSpace (digitChar d) = false ∧
      (digitChar d).toNat < 128 ∧ digitChar d ∉ [',', ':', '[', ']', 'x', 'X', lineFeed] := by
  have : ∀ d : Fin 16, hexDigit (digitChar d.val) = some d.val ∧ (d.val < 10 → decDigit (digitChar d.val) = some d.val) ∧
      isSpace (digitChar d.val) = false ∧ (digitChar d.val).toNat < 128 ∧
      digitChar d.val ∉ [',', ':', '[', ']', 'x', 'X', lineFeed] := by decide
  exact this ⟨d, h⟩

/-- Reading the spelled digits of `n` in front of `acc` is reading `acc` on top of `n`. -/
theorem digitsValue_digitsOf (b : Nat) (digit : Char → Option Nat) (hb : 2 ≤ b)
    (hd : ∀ d, d < b → digit (digitChar d) = some d) (fuel n : Nat) (acc : Text) (h : n < fuel) :
    ∃ m, digitsValue b digit (digitsOf b fuel n acc) 0 = digitsValue b digit acc m ∧ m = n := by
  induction fuel generalizing n acc with
  | zero => omega
  | succ fuel ih =>
    rw [digitsOf]
    split
    · rename_i hn
      exact ⟨n, by simp [digitsValue, hd n hn], rfl⟩
    · rename_i hn
      have hlt : n / b < fuel := by
        have : n / b < n := Nat.div_lt_self (by omega) (by omega)
        omega
      obtain ⟨m, hm, rfl⟩ := ih (n / b) (digitChar (n % b) :: acc) hlt
      refine ⟨n, ?_, rfl⟩
      rw [hm, digitsValue, hd _ (Nat.mod_lt _ (by omega))]
      simp only
      rw [Nat.mul_comm, Nat.div_add_mod]

/-- Every character of a spelled number is a digit character below the base. -/
theorem mem_digitsOf (b fuel n : Nat) (acc : Text) (hb : 2 ≤ b) (c : Char) (h : c ∈ digitsOf b fuel n acc) :
    c ∈ acc ∨ ∃ d, d < b ∧ c = digitChar d := by
  induction fuel generalizing n acc with
  | zero => exact .inl h
  | succ fuel ih =>
    rw [digitsOf] at h
    split at h
    · rename_i hn
      rcases List.mem_cons.1 h with rfl | h
      · exact .inr ⟨n, hn, rfl⟩
      · exact .inl h
    · rcases ih (n / b) _ h with h | h
      · rcases List.mem_cons.1 h with rfl | h
        · exact .inr ⟨n % b, Nat.mod_lt _ (by omega), rfl⟩
        · exact .inl h
      · exact .inr h

theorem digitsOf_ne_nil (b fuel n : Nat) (acc : Text) (h : acc ≠ [] ∨ 0 < fuel) : digitsOf b fuel n acc ≠ [] := by
  induction fuel generalizing n acc with
  | zero => simpa [digitsOf] using h
  | succ fuel ih =>
    rw [digitsOf]
    split
    · simp
    · exact ih _ _ (.inl (by simp))

theorem decText_ne_nil (n : Nat) : decText n ≠ [] := digitsOf_ne_nil _ _ _ _ (.inr (by omega))

theorem hexText_ne_nil (n : Nat) : hexText n ≠ [] := digitsOf_ne_nil _ _ _ _ (.inr (by omega))

theorem mem_decText {n : Nat} {c : Char} (h : c ∈ decText n) : ∃ d, d < 16 ∧ c = digitChar d := by
  rcases mem_digitsOf 10 (n + 1) n [] (by decide) c h with h | ⟨d, hd, rfl⟩
  · cases h
  · exact ⟨d, by omega, rfl⟩

theorem mem_hexText {n : Nat} {c : Char} (h : c ∈ hexText n) : ∃ d, d < 16 ∧ c = digitChar d := by
  rcases mem_digitsOf 16 (n + 1) n [] (by decide) c h with h | ⟨d, hd, rfl⟩
  · cases h
  · exact ⟨d, hd, rfl⟩

/-- A decimal literal reads back. -/
@[simp] theorem decOperand_decText (n : Nat) : decOperand (decText n) = some n := by
  rw [decOperand, if_neg (decText_ne_nil n)]
  obtain ⟨m, hm, rfl⟩ := digitsValue_digitsOf 10 decDigit (by decide)
    (fun d hd => (digitChar_cases d (by omega)).2.1 hd) (n + 1) n [] (by omega)
  exact hm

/-- A spelled hexadecimal number has no mark in front. -/
@[simp] theorem dropHexMark_hexText (n : Nat) : dropHexMark (hexText n) = hexText n := by
  unfold dropHexMark
  rw [if_neg]
  intro h
  have hx : 'x' ∈ hexText n ∨ 'X' ∈ hexText n := by
    rcases h with h | h
    · exact .inl (List.mem_of_mem_take (by rw [h]; simp : 'x' ∈ (hexText n).take 2))
    · exact .inr (List.mem_of_mem_take (by rw [h]; simp : 'X' ∈ (hexText n).take 2))
  rcases hx with hx | hx <;>
  · obtain ⟨d, hd, he⟩ := mem_hexText hx
    have := (digitChar_cases d hd).2.2.2.2
    rw [← he] at this
    simp at this

/-- A hexadecimal literal reads back. -/
@[simp] theorem hexOperand_hexText (n : Nat) : hexOperand (hexText n) = some n := by
  rw [hexOperand, dropHexMark_hexText, if_neg (hexText_ne_nil n)]
  obtain ⟨m, hm, rfl⟩ := digitsValue_digitsOf 16 hexDigit (by decide)
    (fun d hd => (digitChar_cases d hd).1) (n + 1) n [] (by omega)
  exact hm

end Sys2Proof.Machine
end

