-- ==== Sys2Proof/Laws/Forms.lean ====
section
/-! SUPPORT. Operand classes exclude one another, a spelled form tokenizes to its mnemonic and operands, a word holds its text,
and upper case changes no token. -/

namespace Sys2Proof.Machine

/-! ### Plain tokens -/

/-- A token as the encoder spells them: not empty, with no whitespace, comma, colon or line feed, and ASCII. -/
def Plain (o : Text) : Prop :=
  o ≠ [] ∧ ∀ c ∈ o, isSpace c = false ∧ c ≠ ',' ∧ c ≠ ':' ∧ c ≠ lineFeed ∧ c.toNat < 128

/-- The nine mnemonics. -/
def mnemonics : List Text := [mnMOV, mnADD, mnSUB, mnCMP, mnMUL, mnDIV, mnJMP, mnJZ, mnJNZ]

theorem plain_of_all (o : Text) (h : (o != [] && o.all (fun c => !isSpace c && c != ',' && c != ':' && c != lineFeed &&
    decide (c.toNat < 128))) = true) : Plain o := by
  simp only [Bool.and_eq_true, List.all_eq_true, bne_iff_ne, ne_eq, decide_eq_true_eq, Bool.not_eq_true'] at h
  exact ⟨h.1, fun c hc => ⟨(h.2 c hc).1.1.1.1, (h.2 c hc).1.1.1.2, (h.2 c hc).1.1.2, (h.2 c hc).1.2, (h.2 c hc).2⟩⟩

theorem plain_gprName (r : Gpr) : Plain (gprName r) := plain_of_all _ (by cases r <;> decide)

theorem plain_mnemonic (m : Text) (h : m ∈ mnemonics) : Plain m ∧ upper m = m := by
  have : ∀ m ∈ mnemonics, (m != [] && m.all (fun c => !isSpace c && c != ',' && c != ':' && c != lineFeed &&
    decide (c.toNat < 128))) = true ∧ upper m = m := by decide
  exact ⟨plain_of_all m (this m h).1, (this m h).2⟩

theorem plain_digitChar {d : Nat} (h : d < 16) :
    isSpace (digitChar d) = false ∧ digitChar d ≠ ',' ∧ digitChar d ≠ ':' ∧ digitChar d ≠ lineFeed ∧
      (digitChar d).toNat < 128 := by
  have hc := digitChar_cases d h
  have hn := hc.2.2.2.2
  simp only [List.mem_cons, not_or] at hn
  exact ⟨hc.2.2.1, hn.1, hn.2.1, hn.2.2.2.2.2.2.1, hc.2.2.2.1⟩

theorem plain_decText (n : Nat) : Plain (decText n) :=
  ⟨decText_ne_nil n, fun _ h => by obtain ⟨d, hd, rfl⟩ := mem_decText h; exact plain_digitChar hd⟩

theorem plain_hexText (n : Nat) : Plain (hexText n) :=
  ⟨hexText_ne_nil n, fun _ h => by obtain ⟨d, hd, rfl⟩ := mem_hexText h; exact plain_digitChar hd⟩

theorem plain_memText (n : Nat) : Plain (memText n) := by
  refine ⟨by simp [memText], fun c h => ?_⟩
  simp only [memText, List.mem_cons, List.mem_append, List.not_mem_nil, or_false] at h
  rcases h with rfl | h | rfl
  · decide
  · exact (plain_hexText n).2 c h
  · decide

theorem strip_plain {o : Text} (h : Plain o) : strip o = o := strip_of_no_space o (fun c hc => (h.2 c hc).1)

theorem strip_space (o : Text) : strip (' ' :: o) = strip o := by
  unfold strip
  rw [List.dropWhile_cons_of_pos (by decide)]

/-! ### Tokens of a spelled form -/

theorem splitMnemonic (m rest : Text) (hm : Plain m) :
    (m ++ ' ' :: rest).takeWhile (fun c => !isSpace c) = m ∧
      (m ++ ' ' :: rest).dropWhile (fun c => !isSpace c) = ' ' :: rest := by
  have h : ∀ c ∈ m, (!isSpace c) = true := fun c hc => by simp [(hm.2 c hc).1]
  have hs : (!isSpace ' ') = false := by decide
  constructor
  · rw [List.takeWhile_append_of_pos h, List.takeWhile_cons_of_neg (by simp [hs]), List.append_nil]
  · rw [List.dropWhile_append_of_pos h, List.dropWhile_cons_of_neg (by simp [hs])]

/-- `MN o` tokenizes to its mnemonic and its operand. -/
theorem tokenize_lineOne {m o : Text} (hm : m ∈ mnemonics) (ho : Plain o) : tokenize (lineOne m o) = (m, [o]) := by
  obtain ⟨hp, hu⟩ := plain_mnemonic m hm
  obtain ⟨h1, h2⟩ := splitMnemonic m o hp
  unfold tokenize splitWs1 lineOne
  simp only [h1, h2, strip_space, strip_plain ho, if_neg ho.1, hu]
  rw [splitAt_of_not_mem _ _ (fun h => (ho.2 _ h).2.1 rfl)]
  simp [strip_plain ho]

theorem strip_pair {o1 o2 : Text} (h1 : Plain o1) (h2 : Plain o2) :
    strip (o1 ++ ',' :: ' ' :: o2) = o1 ++ ',' :: ' ' :: o2 := by
  apply strip_eq_self
  · intro c hc
    cases o1 with
    | nil => exact absurd rfl h1.1
    | cons x xs =>
      simp at hc
      subst hc
      exact (h1.2 x (by simp)).1
  · intro c hc
    have e : o1 ++ ',' :: ' ' :: o2 = (o1 ++ [',', ' ']) ++ o2 := by simp
    rw [e, List.getLast?_append] at hc
    cases hl : o2.getLast? with
    | none => exact absurd (List.getLast?_eq_none_iff.1 hl) h2.1
    | some y =>
      rw [hl] at hc
      simp at hc
      subst hc
      exact (h2.2 _ (List.mem_of_getLast? hl)).1

/-- `MN o1, o2` tokenizes to its mnemonic and its two operands. -/
theorem tokenize_lineTwo {m o1 o2 : Text} (hm : m ∈ mnemonics) (h1 : Plain o1) (h2 : Plain o2) :
    tokenize (lineTwo m o1 o2) = (m, [o1, o2]) := by
  obtain ⟨hp, hu⟩ := plain_mnemonic m hm
  obtain ⟨e1, e2⟩ := splitMnemonic m (o1 ++ ',' :: ' ' :: o2) hp
  unfold tokenize splitWs1 lineTwo
  simp only [e1, e2, strip_space, strip_pair h1 h2]
  rw [if_neg (by simp)]
  simp only
  rw [splitAt_append _ _ _ (fun h => (h1.2 _ h).2.1 rfl), splitAt_of_not_mem]
  · simp [strip_plain h1, strip_space, strip_plain h2, hu]
  · intro h
    simp at h
    exact (h2.2 _ h).2.1 rfl

/-- A form is spelled with one plain operand or with two. -/
theorem encode_shape (i : Instr) (h : i.isCore = true) :
    (∃ m o, m ∈ mnemonics ∧ Plain o ∧ encode i = lineOne m o) ∨
      (∃ m o1 o2, m ∈ mnemonics ∧ Plain o1 ∧ Plain o2 ∧ encode i = lineTwo m o1 o2) := by
  cases i with
  | placeholder => cases h
  | mulR => exact .inl ⟨_, _, by simp [mnemonics], plain_gprName _, rfl⟩
  | divR => exact .inl ⟨_, _, by simp [mnemonics], plain_gprName _, rfl⟩
  | jmpH => exact .inl ⟨_, _, by simp [mnemonics], plain_hexText _, rfl⟩
  | jzH => exact .inl ⟨_, _, by simp [mnemonics], plain_hexText _, rfl⟩
  | jnzH => exact .inl ⟨_, _, by simp [mnemonics], plain_hexText _, rfl⟩
  | movRI | addRI | subRI => exact .inr ⟨_, _, _, by simp [mnemonics], plain_gprName _, plain_decText _, rfl⟩
  | movRM => exact .inr ⟨_, _, _, by simp [mnemonics], plain_gprName _, plain_memText _, rfl⟩
  | movMR => exact .inr ⟨_, _, _, by simp [mnemonics], plain_memText _, plain_gprName _, rfl⟩
  | movRR | addRR | subRR | cmpRR => exact .inr ⟨_, _, _, by simp [mnemonics], plain_gprName _, plain_gprName _, rfl⟩

/-! ### Operand classes -/

theorem decDigit_range {c : Char} {d : Nat} (h : decDigit c = some d) : 48 ≤ c.toNat ∧ c.toNat ≤ 57 := by
  unfold decDigit at h
  split at h
  · assumption
  · cases h

theorem digitsValue_decDigit_range (o : Text) :
    ∀ acc n, digitsValue 10 decDigit o acc = some n → ∀ c ∈ o, 48 ≤ c.toNat ∧ c.toNat ≤ 57 := by
  induction o with
  | nil => intro _ _ _ c hc; cases hc
  | cons x xs ih =>
    intro acc n h c hc
    rw [digitsValue] at h
    split at h
    · cases h
    · rename_i d hd
      rcases List.mem_cons.1 hc with rfl | hc
      · exact decDigit_range hd
      · exact ih _ _ h c hc

theorem bracketInner_of_reg {o : Text} {r : Gpr} (h : regOperand o = some r) : bracketInner o = none := by
  have hu := regOperand_some h
  unfold bracketInner
  split
  · have hb : upperChar '[' = '[' := by decide
    simp only [upper, List.map_cons, hb] at hu
    cases r <;> simp [gprName] at hu
  · rfl

/-- A decimal literal is no register name and no bracketed operand. -/
theorem not_reg_not_bracket_of_dec {o : Text} {n : Nat} (h : decOperand o = some n) :
    regOperand o = none ∧ bracketInner o = none := by
  unfold decOperand at h
  split at h
  · cases h
  · rename_i hne
    have hx := digitsValue_decDigit_range o _ _ h
    constructor
    · by_contra hc
      obtain ⟨r, hr⟩ := Option.ne_none_iff_exists'.1 hc
      have hu := regOperand_some hr
      cases o with
      | nil => exact hne rfl
      | cons c cs =>
        have hc := hx c (by simp)
        have hup : upperChar c = c := by unfold upperChar; rw [if_neg (by omega)]
        simp only [upper, List.map_cons, hup] at hu
        cases r <;> simp only [gprName, List.cons.injEq] at hu <;> rw [hu.1] at hc <;> revert hc <;> decide
    · unfold bracketInner
      split
      · exact absurd (hx '[' (by simp)) (by decide)
      · rfl

@[simp] theorem regOperand_decText (n : Nat) : regOperand (decText n) = none :=
  (not_reg_not_bracket_of_dec (decOperand_decText n)).1

@[simp] theorem decOperand_gprName (r : Gpr) : decOperand (gprName r) = none := by
  cases r <;> decide

@[simp] theorem bracketInner_memText (a : Nat) : bracketInner (memText a) = some (hexText a) := by
  unfold bracketInner memText
  simp [strip_plain (plain_hexText a)]

@[simp] theorem regOperand_memText (a : Nat) : regOperand (memText a) = none := by
  cases h : regOperand (memText a) with
  | none => rfl
  | some r => exact absurd (bracketInner_of_reg h) (by simp)

@[simp] theorem decOperand_memText (a : Nat) : decOperand (memText a) = none := by
  cases h : decOperand (memText a) with
  | none => rfl
  | some n => exact absurd (not_reg_not_bracket_of_dec h).2 (by simp)

/-! ### Words -/

/-- A word holds the text it was made from, when every character fits eight bits. -/
theorem textOfWord_wordOfText (t : Text) (h : ∀ c ∈ t, c.toNat < 256) : textOfWord t.length (wordOfText t) = t := by
  induction t with
  | nil => rfl
  | cons c cs ih =>
    have hc := h c (by simp)
    simp only [List.length_cons, textOfWord, wordOfText]
    have e1 : (c.toNat % 256 + 256 * wordOfText cs) % 256 = c.toNat := by omega
    have e2 : (c.toNat % 256 + 256 * wordOfText cs) / 256 = wordOfText cs := by omega
    rw [e1, e2, ih (fun x hx => h x (by simp [hx])), Char.ofNat_toNat]

/-! ### Upper case -/

theorem char_ext {a b : Char} (h : a.toNat = b.toNat) : a = b := by
  rw [← Char.ofNat_toNat a, h, Char.ofNat_toNat]

theorem toNat_ofNat {n : Nat} (h : n < 0xD800) : (Char.ofNat n).toNat = n := by
  unfold Char.ofNat
  rw [dif_pos (Or.inl (by omega) : n.isValidChar)]
  simp [Char.ofNatAux, Char.toNat]

theorem toNat_upperChar (c : Char) :
    (upperChar c).toNat = if 97 ≤ c.toNat ∧ c.toNat ≤ 122 then c.toNat - 32 else c.toNat := by
  unfold upperChar
  split
  · rw [toNat_ofNat (by omega)]
  · rfl

@[simp] theorem upperChar_upperChar (c : Char) : upperChar (upperChar c) = upperChar c := by
  apply char_ext
  rw [toNat_upperChar, toNat_upperChar]
  split
  · simp
    omega
  · rfl

@[simp] theorem upper_upper (o : Text) : upper (upper o) = upper o := by
  simp [upper, Function.comp_def]

/-- A character that is no letter is what only itself becomes. -/
theorem upperChar_eq_iff (c d : Char) (h : d.toNat < 65 ∨ 91 ≤ d.toNat ∧ d.toNat ≤ 96) : upperChar c = d ↔ c = d := by
  constructor
  · intro e
    apply char_ext
    have e' := congrArg Char.toNat e
    rw [toNat_upperChar] at e'
    split at e' <;> omega
  · rintro rfl
    apply char_ext
    rw [toNat_upperChar, if_neg (by omega)]

@[simp] theorem isSpace_upperChar (c : Char) : isSpace (upperChar c) = isSpace c := by
  unfold isSpace
  rw [toNat_upperChar]
  split
  · rw [Bool.eq_iff_iff]
    simp
    omega
  · rfl

@[simp] theorem decDigit_upperChar (c : Char) : decDigit (upperChar c) = decDigit c := by
  unfold decDigit
  rw [toNat_upperChar]
  split
  · rw [if_neg (by omega), if_neg (by omega)]
  · rfl

@[simp] theorem hexDigit_upperChar (c : Char) : hexDigit (upperChar c) = hexDigit c := by
  unfold hexDigit
  rw [toNat_upperChar]
  split
  · rw [if_neg (by omega), if_neg (by omega : ¬ (48 ≤ c.toNat ∧ _)), if_neg (by omega : ¬ (65 ≤ c.toNat ∧ _))]
    by_cases h : c.toNat ≤ 102
    · rw [if_pos (by omega), if_pos (by omega)]
      congr 1
    · rw [if_neg (by omega), if_neg (by omega), if_neg (by omega)]
  · rfl

theorem digitsValue_upper (b : Nat) (digit : Char → Option Nat) (hd : ∀ c, digit (upperChar c) = digit c) (o : Text) :
    ∀ acc, digitsValue b digit (upper o) acc = digitsValue b digit o acc := by
  induction o with
  | nil => intro _; rfl
  | cons x xs ih =>
    intro acc
    show digitsValue b digit (upperChar x :: upper xs) acc = _
    simp only [digitsValue, hd]
    split <;> simp [ih]

@[simp] theorem upper_eq_nil (o : Text) : upper o = [] ↔ o = [] := by
  simp [upper]

@[simp] theorem regOperand_upper (o : Text) : regOperand (upper o) = regOperand o := by
  unfold regOperand
  simp only [upper_upper]

@[simp] theorem decOperand_upper (o : Text) : decOperand (upper o) = decOperand o := by
  unfold decOperand
  simp only [upper_eq_nil, digitsValue_upper _ _ decDigit_upperChar]

theorem dropWhile_upper (p : Char → Bool) (hp : ∀ c, p (upperChar c) = p c) (o : Text) :
    (upper o).dropWhile p = upper (o.dropWhile p) := by
  induction o with
  | nil => rfl
  | cons x xs ih =>
    show (upperChar x :: upper xs).dropWhile p = _
    simp only [List.dropWhile, hp]
    split
    · exact ih
    · rfl

theorem takeWhile_upper (p : Char → Bool) (hp : ∀ c, p (upperChar c) = p c) (o : Text) :
    (upper o).takeWhile p = upper (o.takeWhile p) := by
  induction o with
  | nil => rfl
  | cons x xs ih =>
    show (upperChar x :: upper xs).takeWhile p = _
    simp only [List.takeWhile, hp]
    split
    · rw [ih]
      rfl
    · rfl

theorem reverse_upper (o : Text) : (upper o).reverse = upper o.reverse := by
  simp [upper]

theorem strip_upper (o : Text) : strip (upper o) = upper (strip o) := by
  unfold strip
  rw [dropWhile_upper _ isSpace_upperChar, reverse_upper, dropWhile_upper _ isSpace_upperChar, reverse_upper]

theorem dropHexMark_upper (o : Text) : dropHexMark (upper o) = upper (dropHexMark o) := by
  match o with
  | [] => rfl
  | [_] => simp [dropHexMark, upper]
  | a :: b :: r =>
    have ea := upperChar_eq_iff a '0' (.inl (by decide))
    have e1 : 'X'.toNat = 88 := by decide
    have e2 : 'x'.toNat = 120 := by decide
    have ex : upperChar b ≠ 'x' := by
      intro h
      have h' := congrArg Char.toNat h
      rw [toNat_upperChar, e2] at h'
      split at h' <;> omega
    have eX : upperChar b = 'X' ↔ (b = 'x' ∨ b = 'X') := by
      constructor
      · intro h
        have h' := congrArg Char.toNat h
        rw [toNat_upperChar, e1] at h'
        split at h'
        · exact .inl (char_ext (by omega))
        · exact .inr (char_ext (by omega))
      · rintro (rfl | rfl) <;> decide
    unfold dropHexMark
    simp only [upper, List.map_cons, List.take_succ_cons, List.take_zero, List.cons.injEq, and_true, ea, ex, eX, and_false,
      false_or]
    by_cases ha : a = '0' <;> by_cases hb : b = 'x' <;> by_cases hc : b = 'X' <;> simp [ha, hb, hc]

@[simp] theorem hexOperand_upper (o : Text) : hexOperand (upper o) = hexOperand o := by
  unfold hexOperand
  simp only [dropHexMark_upper, upper_eq_nil, digitsValue_upper _ _ hexDigit_upperChar]

theorem splitAt_comma_upper (o : Text) : splitAt ',' (upper o) = (splitAt ',' o).map upper := by
  induction o with
  | nil => rfl
  | cons x xs ih =>
    show splitAt ',' (upperChar x :: upper xs) = _
    simp only [splitAt, ih, upperChar_eq_iff x ',' (.inl (by decide))]
    split
    · rfl
    · cases splitAt ',' xs <;> rfl

/-- A line in capitals has the same mnemonic and the operands in capitals. -/
theorem tokenize_upper (line : Text) : tokenize (upper line) = ((tokenize line).1, (tokenize line).2.map upper) := by
  have hp : ∀ c, (!isSpace (upperChar c)) = (!isSpace c) := fun c => by rw [isSpace_upperChar]
  unfold tokenize splitWs1
  simp only [dropWhile_upper (fun c => !isSpace c) hp, takeWhile_upper (fun c => !isSpace c) hp, strip_upper, upper_eq_nil]
  by_cases h : strip (line.dropWhile (fun c => !isSpace c)) = []
  · simp [h]
  · simp [h, splitAt_comma_upper, strip_upper, Function.comp_def]

theorem bracketInner_of_ne (c : Char) (r : Text) (h : c ≠ '[') : bracketInner (c :: r) = none := by
  unfold bracketInner
  split
  · rename_i e
    exact absurd (List.cons.inj e).1 h
  · rfl

theorem bracketInner_upper (o : Text) : bracketInner (upper o) = (bracketInner o).map upper := by
  match o with
  | [] => rfl
  | c :: r =>
    show bracketInner (upperChar c :: upper r) = _
    by_cases h : c = '['
    · subst h
      have hb : upperChar '[' = '[' := by decide
      have e : (upper r).getLast? = some ']' ↔ r.getLast? = some ']' := by
        rw [upper, List.getLast?_map]
        cases r.getLast? with
        | none => simp
        | some x => simp [upperChar_eq_iff x ']' (.inr (by decide))]
      have e2 : (upper r).dropLast = upper r.dropLast := by simp [upper, List.map_dropLast]
      rw [hb]
      simp only [bracketInner, e2]
      by_cases hh : r.getLast? = some ']' <;> simp [hh, e, strip_upper]
    · rw [bracketInner_of_ne _ _ (fun e => h ((upperChar_eq_iff c '[' (.inr (by decide))).1 e)), bracketInner_of_ne _ _ h]
      rfl

end Sys2Proof.Machine
end

