-- ==== Sys2Proof/Laws/Memory.lean ====
section
/-! SUPPORT. Data memory: every operation keeps the canonical form; read after write; the two bytes of a 16-bit access. -/

namespace Sys2Proof.Machine

theorem physAddr_lt (a : Nat) : physAddr a < 1048576 := Nat.mod_lt _ (by decide)

/-- The two bytes of an access are never the same byte. -/
theorem physAddr_succ_ne (a : Nat) : physAddr (a + 1) ≠ physAddr a := by
  simp only [physAddr, Config.memSize]; omega

/-! ### The canonical form -/

theorem wfFrom_cons_iff (low a : Nat) (b : Byte) (rest : Memory) :
    Memory.wfFrom low ((a, b) :: rest) = true ↔
      low ≤ a ∧ a < 1048576 ∧ b ≠ 0#8 ∧ Memory.wfFrom (a + 1) rest = true := by
  simp [Memory.wfFrom, and_assoc]

theorem wfFrom_mono {low low' : Nat} (m : Memory) (h : low' ≤ low) (hm : Memory.wfFrom low m = true) :
    Memory.wfFrom low' m = true := by
  cases m with
  | nil => rfl
  | cons e rest =>
    rw [wfFrom_cons_iff] at hm ⊢
    exact ⟨by omega, hm.2⟩

theorem wfFrom_consByte (low a : Nat) (b : Byte) (m : Memory) (hl : low ≤ a) (ha : a < 1048576)
    (hm : Memory.wfFrom (a + 1) m = true) : Memory.wfFrom low (Memory.cons a b m) = true := by
  unfold Memory.cons
  split
  · exact wfFrom_mono m (by omega) hm
  · exact (wfFrom_cons_iff ..).2 ⟨hl, ha, by assumption, hm⟩

theorem wfFrom_write (low a : Nat) (b : Byte) (m : Memory) (hl : low ≤ a) (ha : a < 1048576)
    (hm : Memory.wfFrom low m = true) : Memory.wfFrom low (m.write a b) = true := by
  induction m generalizing low with
  | nil => exact wfFrom_consByte low a b [] hl ha rfl
  | cons e rest ih =>
    obtain ⟨k, v⟩ := e
    obtain ⟨hk, hk', hv, hr⟩ := (wfFrom_cons_iff ..).1 hm
    unfold Memory.write
    split
    · exact wfFrom_consByte low a b _ hl ha ((wfFrom_cons_iff ..).2 ⟨by omega, hk', hv, hr⟩)
    · split
      · subst a
        exact wfFrom_consByte low k b rest hl ha hr
      · exact (wfFrom_cons_iff ..).2 ⟨hk, hk', hv, ih (k + 1) (by omega) hr⟩

/-- Writing a byte keeps the canonical form. -/
theorem wf_write (m : Memory) (a : Nat) (b : Byte) (ha : a < 1048576) (hm : m.wf = true) : (m.write a b).wf = true :=
  wfFrom_write 0 a b m (Nat.zero_le a) ha hm

/-- MemWrite keeps the canonical form at every address and width. -/
theorem wf_memWrite (m : Memory) (addr n v : Nat) (hm : m.wf = true) : (memWrite m addr n v).wf = true := by
  induction n generalizing m addr v with
  | zero => exact hm
  | succ n ih => exact ih _ _ _ (wf_write m _ _ (physAddr_lt addr) hm)

theorem wf_reset : State.reset.mem.wf = true := rfl

/-! ### Reading -/

theorem read_below (m : Memory) (low a : Nat) (h : a < low) (hm : Memory.wfFrom low m = true) : m.read a = 0#8 := by
  induction m generalizing low with
  | nil => rfl
  | cons e rest ih =>
    obtain ⟨k, v⟩ := e
    obtain ⟨hk, _, _, hr⟩ := (wfFrom_cons_iff ..).1 hm
    rw [Memory.read, if_neg (by omega)]
    exact ih (k + 1) (by omega) hr

theorem read_consByte_same (low a : Nat) (b : Byte) (m : Memory) (ha : a < low) (hm : Memory.wfFrom low m = true) :
    (Memory.cons a b m).read a = b := by
  unfold Memory.cons
  split
  · rw [read_below m low a ha hm]; exact Eq.symm ‹_›
  · rw [Memory.read, if_pos rfl]

theorem read_consByte_other (a a' : Nat) (b : Byte) (m : Memory) (h : a' ≠ a) : (Memory.cons a b m).read a' = m.read a' := by
  unfold Memory.cons
  split
  · rfl
  · rw [Memory.read, if_neg (Ne.symm h)]

theorem read_writeFrom_same (low a : Nat) (b : Byte) (m : Memory) (hm : Memory.wfFrom low m = true) :
    (m.write a b).read a = b := by
  induction m generalizing low with
  | nil => exact read_consByte_same (a + 1) a b [] (by omega) rfl
  | cons e rest ih =>
    obtain ⟨k, v⟩ := e
    obtain ⟨hk, hk', hv, hr⟩ := (wfFrom_cons_iff ..).1 hm
    unfold Memory.write
    split
    · exact read_consByte_same k a b _ (by assumption) ((wfFrom_cons_iff ..).2 ⟨by omega, hk', hv, hr⟩)
    · split
      · subst a
        exact read_consByte_same (k + 1) k b rest (by omega) hr
      · rw [Memory.read, if_neg (by omega)]
        exact ih (k + 1) hr

/-- A read after a write to the same address gives the byte written. -/
theorem read_write_same (m : Memory) (a : Nat) (b : Byte) (hm : m.wf = true) : (m.write a b).read a = b :=
  read_writeFrom_same 0 a b m hm

/-- A write leaves every other address as it was, in any memory. -/
theorem read_write_other (m : Memory) (a a' : Nat) (b : Byte) (h : a' ≠ a) : (m.write a b).read a' = m.read a' := by
  induction m with
  | nil => exact read_consByte_other a a' b [] h
  | cons e rest ih =>
    obtain ⟨k, v⟩ := e
    unfold Memory.write
    split
    · exact read_consByte_other a a' b _ h
    · split
      · subst a
        rw [read_consByte_other k a' b rest h, Memory.read, if_neg (Ne.symm h)]
      · rw [Memory.read, Memory.read, ih]

/-! ### 16-bit accesses -/

theorem memRead_two (m : Memory) (addr : Nat) :
    memRead m addr 2 = (m.read (physAddr addr)).toNat + 256 * (m.read (physAddr (addr + 1))).toNat := by
  simp [memRead]

theorem memWrite_two (m : Memory) (addr v : Nat) :
    memWrite m addr 2 v =
      (m.write (physAddr addr) (BitVec.ofNat 8 v)).write (physAddr (addr + 1)) (BitVec.ofNat 8 (v / 256)) := rfl

/-- A 16-bit write leaves every byte but its two. -/
theorem read_memWrite_two_other (m : Memory) (addr v a : Nat) (h : a ≠ physAddr addr) (h' : a ≠ physAddr (addr + 1)) :
    (memWrite m addr 2 v).read a = m.read a := by
  rw [memWrite_two, read_write_other _ _ _ _ h', read_write_other _ _ _ _ h]

/-- The lower address holds bits 7 to 0. -/
theorem read_memWrite_two_low (m : Memory) (addr v : Nat) (hm : m.wf = true) :
    (memWrite m addr 2 v).read (physAddr addr) = BitVec.ofNat 8 v := by
  rw [memWrite_two, read_write_other _ _ _ _ (physAddr_succ_ne addr).symm, read_write_same _ _ _ hm]

/-- The next address holds bits 15 to 8. -/
theorem read_memWrite_two_high (m : Memory) (addr v : Nat) (hm : m.wf = true) :
    (memWrite m addr 2 v).read (physAddr (addr + 1)) = BitVec.ofNat 8 (v / 256) := by
  rw [memWrite_two, read_write_same _ _ _ (wf_write m _ _ (physAddr_lt addr) hm)]

end Sys2Proof.Machine
end

