-- ==== Sys2Proof/Laws/Step.lean ====
section
/-! SUPPORT. What the shared operations of the sequencer can do: the fetch, the end of a step, a division, an instruction, a
step. Later proofs cite these and do not unfold `exec` or `step`. -/

namespace Sys2Proof.Machine

/-! ### Order and faults -/

@[simp] theorem andThen_next (s : State) (k : State → Result) : andThen (.next s) k = k s := rfl
@[simp] theorem andThen_fault (e : Fault) (k : State → Result) : andThen (.fault e) k = .fault e := rfl
@[simp] theorem andThen_refused (e : Refusal) (k : State → Result) : andThen (.refused e) k = .refused e := rfl

@[simp] theorem andThen_fault_raise (s : State) (k : State → Result) :
    andThen (raiseDivideByZero s) k = raiseDivideByZero s := rfl

@[simp] theorem andThen_next_right (o : Result) : andThen o .next = o := by
  cases o <;> rfl

@[simp] theorem mapResult_next (f : State → State) (s : State) : mapResult f (.next s) = .next (f s) := rfl
@[simp] theorem mapResult_fault (f : State → State) (s : State) :
    mapResult f (.fault (.divideByZero s)) = .fault (.divideByZero (f s)) := rfl
@[simp] theorem mapResult_raise (f : State → State) (s : State) :
    mapResult f (raiseDivideByZero s) = raiseDivideByZero (f s) := rfl

/-! ### Division -/

theorem microDiv_zero (src : Gpr) (s : State) (h : s.readGpr src = 0#16) : microDiv src s = .fault (.divideByZero s) := by
  simp [microDiv, h, raiseDivideByZero]

theorem toNat_ne_zero {v : Word} (h : v ≠ 0#16) : v.toNat ≠ 0 := by
  intro h0
  exact h (BitVec.eq_of_toNat_eq (by simpa using h0))

theorem microDiv_nonzero (src : Gpr) (s : State) (h : s.readGpr src ≠ 0#16) :
    microDiv src s =
      .next ((s.writeGpr .ax (BitVec.ofNat 16 (s.dividend / (s.readGpr src).toNat))).writeGpr .dx
        (BitVec.ofNat 16 (s.dividend % (s.readGpr src).toNat))) := by
  simp [microDiv, toNat_ne_zero h]

/-! ### The fetch -/

theorem fetchLine_eq_none_iff (s : State) : fetchLine s = none ↔ s.halted = true ∨ s.lines.length ≤ s.ip := by
  unfold fetchLine
  split <;> simp_all

theorem fetchLine_eq_some_iff (s : State) (line : Text) :
    fetchLine s = some line ↔ s.halted = false ∧ s.lines[s.ip]? = some line := by
  unfold fetchLine
  split <;> simp_all

theorem fetchLine_mem {s : State} {line : Text} (h : fetchLine s = some line) : line ∈ s.lines :=
  List.mem_of_getElem? ((fetchLine_eq_some_iff s line).1 h).2

/-! ### What a fault leaves -/

@[simp] theorem settleFault_gprs (s u : State) : (settleFault s u).gprs = u.gprs := rfl
@[simp] theorem settleFault_segs (s u : State) : (settleFault s u).segs = u.segs := rfl
@[simp] theorem settleFault_ip (s u : State) : (settleFault s u).ip = u.ip := rfl
@[simp] theorem settleFault_temp (s u : State) : (settleFault s u).temp = u.temp := rfl
@[simp] theorem settleFault_flags (s u : State) : (settleFault s u).flags = u.flags := rfl
@[simp] theorem settleFault_mem (s u : State) : (settleFault s u).mem = u.mem := rfl
@[simp] theorem settleFault_lines (s u : State) : (settleFault s u).lines = u.lines := rfl
@[simp] theorem settleFault_labels (s u : State) : (settleFault s u).labels = u.labels := rfl
@[simp] theorem settleFault_halted (s u : State) : (settleFault s u).halted = u.halted := rfl
@[simp] theorem settleFault_running (s u : State) : (settleFault s u).running = u.running := rfl

/-- The line field after a fault holds the old value or the new one. -/
theorem settleFault_currentInstruction (s u : State) :
    (settleFault s u).currentInstruction = s.currentInstruction ∨
      (settleFault s u).currentInstruction = u.currentInstruction := by
  simp only [settleFault]
  split <;> simp

/-- The micro-op field after a fault holds the old value or the new one. -/
theorem settleFault_lastMicroinstructions (s u : State) :
    (settleFault s u).lastMicroinstructions = s.lastMicroinstructions ∨
      (settleFault s u).lastMicroinstructions = u.lastMicroinstructions := by
  simp only [settleFault]
  split <;> simp

/-! ### An instruction -/

/-- The state an instruction leaves when it does not fault. -/
def execNext (i : Instr) (s : State) : State :=
  match i with
  | .movRI d n => microMovi (.gpr d) (immediate n) s
  | .movRR d src => microMovr d src s
  | .movRM d a => microLoad d a s
  | .movMR a src => microStore a src s
  | .addRR d src => microAddr d (.gpr src) s
  | .addRI d n => microAddr d .temp (microMovi .temp (immediate n) s)
  | .subRR d src => microSubr d (.gpr src) s
  | .subRI d n => microSubr d .temp (microMovi .temp (immediate n) s)
  | .cmpRR p q => microCmpr p q s
  | .mulR src => microMul src s
  | .divR src =>
    (s.writeGpr .ax (BitVec.ofNat 16 (s.dividend / (s.readGpr src).toNat))).writeGpr .dx
      (BitVec.ofNat 16 (s.dividend % (s.readGpr src).toNat))
  | .jmpH t => microJmp t s
  | .jzH t => microJz t s
  | .jnzH t => microJnz t s
  | .placeholder _ _ => s

/-- Everything an instruction can answer: a DIV with a zero divisor raises the fault where it stands, and everything else goes
on to `execNext`. -/
theorem exec_cases (i : Instr) (s : State) :
    (∃ src, i = .divR src ∧ s.readGpr src = 0#16 ∧ exec i s = .fault (.divideByZero s)) ∨
      ((∀ src, i = .divR src → s.readGpr src ≠ 0#16) ∧ exec i s = .next (execNext i s)) := by
  cases i with
  | divR src =>
    by_cases h : s.readGpr src = 0#16
    · exact .inl ⟨src, rfl, h, microDiv_zero src s h⟩
    · refine .inr ⟨?_, microDiv_nonzero src s h⟩
      intro r hr
      cases hr
      exact h
  | _ => exact .inr ⟨fun _ h => (by cases h), rfl⟩

/-- An instruction that completes leaves `execNext`. -/
theorem exec_next {i : Instr} {s t : State} (h : exec i s = .next t) : t = execNext i s := by
  rcases exec_cases i s with ⟨_, _, _, he⟩ | ⟨_, he⟩ <;> rw [he] at h <;> cases h
  rfl

/-- An instruction that faults is a DIV whose divisor is 0, and its state stands as it was. -/
theorem exec_fault {i : Instr} {s : State} {e : Fault} (h : exec i s = .fault e) :
    e = .divideByZero s ∧ ∃ src, i = .divR src ∧ s.readGpr src = 0#16 := by
  rcases exec_cases i s with ⟨src, hi, hz, he⟩ | ⟨_, he⟩ <;> rw [he] at h <;> cases h
  exact ⟨rfl, src, hi, hz⟩

/-! ### A step -/

theorem step_of_fetch_none {s : State} (h : fetchLine s = none) : step s = .next (haltStep s) := by
  simp [step, h]

theorem step_of_fetch_some {s : State} {line : Text} (h : fetchLine s = some line) :
    step s = finishStep s (exec (decode line) (recordStep s line)) := by
  simp [step, h]

/-- Everything a step can do: halt, run its line and increment, or fault. -/
theorem step_cases (s : State) :
    (fetchLine s = none ∧ step s = .next (haltStep s)) ∨
    (∃ line, fetchLine s = some line ∧
      exec (decode line) (recordStep s line) = .next (execNext (decode line) (recordStep s line)) ∧
      step s = .next (advanceIp (execNext (decode line) (recordStep s line)))) ∨
    (∃ line src, fetchLine s = some line ∧ decode line = .divR src ∧ s.readGpr src = 0#16 ∧
      step s = .fault (.divideByZero (settleFault s (recordStep s line)))) := by
  cases h : fetchLine s with
  | none => exact .inl ⟨rfl, step_of_fetch_none h⟩
  | some line =>
    rcases exec_cases (decode line) (recordStep s line) with ⟨src, hi, hz, he⟩ | ⟨_, he⟩
    · exact .inr (.inr ⟨line, src, rfl, hi, hz, by rw [step_of_fetch_some h, he]; rfl⟩)
    · exact .inr (.inl ⟨line, rfl, he, by rw [step_of_fetch_some h, he]; rfl⟩)

end Sys2Proof.Machine
end

