-- ==== Sys2Proof/Laws/Host.lean ====
section
/-! SUPPORT. What `step()` as a host operation answers, and what it never touches. -/

namespace Sys2Proof.Machine

/-- A step that faults answers the fault with its error message, and leaves the state the fault carries. -/
theorem hostStep_of_fault {s t : State} (h : step s = .fault (.divideByZero t)) :
    hostStep s = (.fault .divideByZero (errorMessage t), t) := by
  simp only [hostStep, h]

/-- Everything `step()` can answer: it executes its line, halts, or faults. -/
theorem hostStep_cases (s : State) :
    (∃ line, fetchLine s = some line ∧
      exec (decode line) (recordStep s line) = .next (execNext (decode line) (recordStep s line)) ∧
      hostStep s = (.ok true, advanceIp (execNext (decode line) (recordStep s line)))) ∨
    (fetchLine s = none ∧ hostStep s = (.ok false, haltStep s)) ∨
    (∃ line src, fetchLine s = some line ∧ decode line = .divR src ∧ s.readGpr src = 0#16 ∧
      step s = .fault (.divideByZero (settleFault s (recordStep s line))) ∧
      hostStep s =
        (.fault .divideByZero (errorMessage (settleFault s (recordStep s line))), settleFault s (recordStep s line))) := by
  rcases step_cases s with ⟨hf, hs⟩ | ⟨line, hf, he, hs⟩ | ⟨line, src, hf, hd, hz, hs⟩
  · exact .inr (.inl ⟨hf, by simp [hostStep, hs, hf]⟩)
  · exact .inl ⟨line, hf, he, by simp [hostStep, hs, hf]⟩
  · exact .inr (.inr ⟨line, src, hf, hd, hz, hs, hostStep_of_fault hs⟩)

/-- A step that returns `Ok(true)` ran the line at IP and incremented. -/
theorem hostStep_ok {s t : State} (h : hostStep s = (.ok true, t)) :
    ∃ line, fetchLine s = some line ∧ t = advanceIp (execNext (decode line) (recordStep s line)) := by
  rcases hostStep_cases s with ⟨line, hf, _, hs⟩ | ⟨_, hs⟩ | ⟨_, _, _, _, _, _, hs⟩ <;> rw [hs] at h <;> cases h
  exact ⟨line, hf, rfl⟩

/-- No instruction writes the program store or `running`. -/
theorem execNext_store (i : Instr) (s : State) :
    (execNext i s).lines = s.lines ∧ (execNext i s).labels = s.labels ∧ (execNext i s).running = s.running := by
  cases i with
  | jzH t => simp only [execNext, microJz]; split <;> exact ⟨rfl, rfl, rfl⟩
  | jnzH t => simp only [execNext, microJnz]; split <;> exact ⟨rfl, rfl, rfl⟩
  | _ => exact ⟨rfl, rfl, rfl⟩

/-- No step writes the program store or `running`. -/
theorem hostStep_store (s : State) :
    (hostStep s).2.lines = s.lines ∧ (hostStep s).2.labels = s.labels ∧ (hostStep s).2.running = s.running := by
  rcases hostStep_cases s with ⟨line, _, _, hs⟩ | ⟨_, hs⟩ | ⟨_, _, _, _, _, _, hs⟩ <;> rw [hs]
  · exact execNext_store (decode line) (recordStep s line)
  · exact ⟨rfl, rfl, rfl⟩
  · exact ⟨rfl, rfl, rfl⟩

@[simp] theorem okSteps_zero (s : State) : okSteps 0 s = some s := rfl

/-- A run of steps goes on through a step that returns `Ok(true)`. -/
theorem okSteps_succ_of_ok {s t : State} (h : hostStep s = (.ok true, t)) (k : Nat) : okSteps (k + 1) s = okSteps k t := by
  rw [okSteps, h]

end Sys2Proof.Machine
end

