-- ==== Sys2Proof/Laws/PerInstr.lean ====
section
/-! SUPPORT. Per-instruction facts about the instruction as a term: its micro-ops have the tags that its row of
opcode_table.json lists ("micro_op_tags"), so there are one or two of them. -/

namespace Sys2Proof.Laws

/-- The "micro_op_tags" column of opcode_table.json; a placeholder has one of its row's two. -/
def tableTags : Instr → List Nat
  | .movRI .. => [0]
  | .movRR .. => [1]
  | .movRM .. => [2]
  | .movMR .. => [3]
  | .addRR .. => [4]
  | .addRI .. => [0, 4]
  | .subRR .. => [5]
  | .subRI .. => [0, 5]
  | .cmpRR .. => [6]
  | .mulR .. => [7]
  | .divR .. => [8]
  | .jmpH .. => [9]
  | .jzH .. => [10]
  | .jnzH .. => [11]
  | .placeholder .unimpl _ => [12]
  | .placeholder .malformed _ => [13]

/-- The lowering of an instruction has its table row's tags. -/
def Tags.Statement (i : Instr) : Prop := (Machine.lower i).map Machine.MicroOp.tag = tableTags i

theorem Tags.movRI (d : Gpr) (n : Nat) : Tags.Statement (.movRI d n) := rfl
theorem Tags.movRR (d s : Gpr) : Tags.Statement (.movRR d s) := rfl
theorem Tags.movRM (d : Gpr) (a : Nat) : Tags.Statement (.movRM d a) := rfl
theorem Tags.movMR (a : Nat) (s : Gpr) : Tags.Statement (.movMR a s) := rfl
theorem Tags.addRR (d s : Gpr) : Tags.Statement (.addRR d s) := rfl
theorem Tags.addRI (d : Gpr) (n : Nat) : Tags.Statement (.addRI d n) := rfl
theorem Tags.subRR (d s : Gpr) : Tags.Statement (.subRR d s) := rfl
theorem Tags.subRI (d : Gpr) (n : Nat) : Tags.Statement (.subRI d n) := rfl
theorem Tags.cmpRR (p q : Gpr) : Tags.Statement (.cmpRR p q) := rfl
theorem Tags.mulR (s : Gpr) : Tags.Statement (.mulR s) := rfl
theorem Tags.divR (s : Gpr) : Tags.Statement (.divR s) := rfl
theorem Tags.jmpH (t : Nat) : Tags.Statement (.jmpH t) := rfl
theorem Tags.jzH (t : Nat) : Tags.Statement (.jzH t) := rfl
theorem Tags.jnzH (t : Nat) : Tags.Statement (.jnzH t) := rfl
theorem Tags.placeholder (kind : PlaceholderKind) (line : Text) : Tags.Statement (.placeholder kind line) := by
  cases kind <;> rfl

end Sys2Proof.Laws
end

