-- ==== Sys2Proof/Tests/Slice0.lean ====
section
/-! SUPPORT. Tests of one step or one operation, expected values from spec/95_test_vectors.md (its ids are named) and from the
decode table 30_encoding.md R90; the WellFormed smoke tests; and, for each statement with hypotheses, a witness. -/

namespace Sys2Proof.Tests

open Sys2Proof Sys2Proof.Machine

/-- The state a result goes on to. -/
def after : Result → Option State
  | .next t => some t
  | .fault _ => none
  | .refused _ => none

/-- Reset, with AX, BX, CX and DX set. -/
def regs (a b c d : Word) : State :=
  { State.reset with gprs := { State.reset.gprs with ax := a, bx := b, cx := c, dx := d } }

/-- CF PF AF ZF SF OF, the order of 95_test_vectors.md. -/
def six (t : State) : List Bool := [t.flags.cf, t.flags.pf, t.flags.af, t.flags.zf, t.flags.sf, t.flags.of]

/-- Reset with a program. -/
def prog (lines : List Text) : State := { State.reset with lines := lines }

def lineMov : Text := "MOV AX, 1".toList
def lineDiv : Text := "DIV AX".toList
def lineJmp0 : Text := "JMP 0".toList
def lineJz4 : Text := "JZ 4".toList
def lineJnz1 : Text := "JNZ 1".toList
def linePush : Text := "PUSH AX".toList

/-! ### WellFormed smoke tests: one ill-formed term for each check -/

theorem test_wf_blank_line : (Instr.placeholder .unimpl []).wellFormed = false := by decide
theorem test_wf_unstripped_line : (Instr.placeholder .unimpl " NOP".toList).wellFormed = false := by decide
theorem test_wf_line_with_lf : (Instr.placeholder .unimpl ['A', lineFeed, 'B']).wellFormed = false := by decide
theorem test_wf_line_fits_a_form : (Instr.placeholder .unimpl "MUL CX".toList).wellFormed = false := by decide
theorem test_wf_wrong_kind : (Instr.placeholder .malformed "NOP".toList).wellFormed = false := by decide
theorem test_wf_wrong_kind_malformed : (Instr.placeholder .unimpl "JMP loop".toList).wellFormed = false := by decide
theorem test_wf_placeholder : (Instr.placeholder .malformed "JMP loop".toList).wellFormed = true := by decide

/-! ### Decoding: the rows of 30_encoding.md R90 -/

theorem test_decode_mov_lower : decode "mov ax, 5".toList = .movRI .ax 5 := by decide
theorem test_decode_mov_nospace : decode "MOV AX,5".toList = .movRI .ax 5 := by decide
theorem test_decode_mov_leading_zeros : decode "MOV AX, 007".toList = .movRI .ax 7 := by decide
theorem test_decode_mov_hex_immediate : decode "MOV AX, 0x10".toList = asUnimpl "MOV AX, 0x10".toList := by decide
theorem test_decode_mov_comment : decode "MOV AX, 5 ; x".toList = asUnimpl "MOV AX, 5 ; x".toList := by decide
theorem test_decode_mov_view : decode "MOV AL, 5".toList = asUnimpl "MOV AL, 5".toList := by decide
theorem test_decode_mov_segment : decode "MOV DS, AX".toList = asUnimpl "MOV DS, AX".toList := by decide
theorem test_decode_mov_reg : decode "MOV SP, bp".toList = .movRR .sp .bp := by decide
theorem test_decode_mov_load_mark : decode "MOV AX, [0x10]".toList = .movRM .ax 16 := by decide
theorem test_decode_mov_load_spaces : decode "MOV AX, [ 1f ]".toList = .movRM .ax 31 := by decide
theorem test_decode_mov_load_bad : decode "MOV AX, [xyz]".toList = asMalformed "MOV AX, [xyz]".toList := by decide
theorem test_decode_mov_load_empty : decode "MOV AX, []".toList = asMalformed "MOV AX, []".toList := by decide
theorem test_decode_mov_store : decode "MOV [FFFFF], SI".toList = .movMR 0xFFFFF .si := by decide
theorem test_decode_mov_store_bad : decode "MOV [zz], AX".toList = asMalformed "MOV [zz], AX".toList := by decide
theorem test_decode_mov_store_immediate : decode "MOV [10], 5".toList = asUnimpl "MOV [10], 5".toList := by decide
theorem test_decode_mov_mem_mem : decode "MOV [10], [20]".toList = asUnimpl "MOV [10], [20]".toList := by decide
theorem test_decode_mov_one_operand : decode "MOV AX".toList = asUnimpl "MOV AX".toList := by decide
theorem test_decode_mov_three_operands : decode "MOV AX, BX, CX".toList = asUnimpl "MOV AX, BX, CX".toList := by decide
theorem test_decode_mov_trailing_comma : decode "MOV AX,".toList = asUnimpl "MOV AX,".toList := by decide
theorem test_decode_add_imm : decode "ADD AX, 3".toList = .addRI .ax 3 := by decide
theorem test_decode_add_reg : decode "ADD AX , bx".toList = .addRR .ax .bx := by decide
theorem test_decode_add_mem : decode "ADD AX, [10]".toList = asUnimpl "ADD AX, [10]".toList := by decide
theorem test_decode_add_imm_dest : decode "ADD 5, AX".toList = asUnimpl "ADD 5, AX".toList := by decide
theorem test_decode_sub_imm : decode "SUB CX, 65537".toList = .subRI .cx 65537 := by decide
theorem test_decode_sub_reg : decode "SUB DI, BP".toList = .subRR .di .bp := by decide
theorem test_decode_cmp_reg : decode "CMP AX, BX".toList = .cmpRR .ax .bx := by decide
theorem test_decode_cmp_imm : decode "CMP AX, 5".toList = asUnimpl "CMP AX, 5".toList := by decide
theorem test_decode_mul_reg : decode "MUL DX".toList = .mulR .dx := by decide
theorem test_decode_mul_imm : decode "MUL 5".toList = asUnimpl "MUL 5".toList := by decide
theorem test_decode_div_reg : decode "DIV BX".toList = .divR .bx := by decide
theorem test_decode_div_two : decode "DIV AX, BX".toList = asUnimpl "DIV AX, BX".toList := by decide
theorem test_decode_jmp_hex : decode "JMP 10".toList = .jmpH 16 := by decide
theorem test_decode_jmp_mark : decode "JMP 0x1F".toList = .jmpH 31 := by decide
theorem test_decode_jmp_word : decode "JMP add".toList = .jmpH 2781 := by decide
theorem test_decode_jmp_label : decode "JMP loop".toList = asMalformed "JMP loop".toList := by decide
theorem test_decode_jmp_negative : decode "JMP -1".toList = asMalformed "JMP -1".toList := by decide
theorem test_decode_jmp_none : decode "JMP".toList = asUnimpl "JMP".toList := by decide
theorem test_decode_jmp_two : decode "JMP 1, 2".toList = asUnimpl "JMP 1, 2".toList := by decide
theorem test_decode_jz : decode "jz beef".toList = .jzH 0xBEEF := by decide
theorem test_decode_jnz : decode "JNZ 1".toList = .jnzH 1 := by decide
theorem test_decode_nop : decode "NOP".toList = asUnimpl "NOP".toList := by decide

/-! ### Words written out byte by byte from the spelling (ASCII codes, the first character in bits 7 to 0) -/

-- 4D 4F 56 20 41 58 2C 35 = "MOV AX,5"
theorem test_word_mov : decodeTableWord 64 0x352C584120564F4D = some (.movRI .ax 5) := by decide
-- 41 44 44 20 42 58 2C 43 58 = "ADD BX,CX"
theorem test_word_add : decodeTableWord 72 0x58432C584220444441 = some (.addRR .bx .cx) := by decide
-- 53 55 42 20 43 58 2C 31 = "SUB CX,1"
theorem test_word_sub : decodeTableWord 64 0x312C584320425553 = some (.subRI .cx 1) := by decide
-- 43 4D 50 20 41 58 2C 42 58 = "CMP AX,BX"
theorem test_word_cmp : decodeTableWord 72 0x58422C584120504D43 = some (.cmpRR .ax .bx) := by decide
-- 44 49 56 20 42 58 = "DIV BX"
theorem test_word_div : decodeTableWord 48 0x584220564944 = some (.divR .bx) := by decide
-- 4A 4E 5A 20 31 = "JNZ 1"
theorem test_word_jnz : decodeTableWord 40 0x31205A4E4A = some (.jnzH 1) := by decide
-- 20 is a space alone: the program store holds no such line
theorem test_word_refused : decodeTableWord 8 0x20 = none := by decide
theorem test_fetch_word_runs :
    (after (step (State.reset.withFetchWord 64 0x352C584120564F4D))).map (fun t => (t.readGpr .ax, t.ip)) = some (5#16, 1) := by
  decide
theorem test_encode_store : encode (.movMR 0x1F .bx) = "MOV [1F], BX".toList := by decide
theorem test_encode_immediate : encode (.subRI .cx 120) = "SUB CX, 120".toList := by decide

/-! ### Program text (LD1, LD2, LD4, LD5, LD7) -/

theorem test_parse_blank : parseProgram "MOV AX, 1\n\n  \nADD AX, 2".toList = (["MOV AX, 1".toList, "ADD AX, 2".toList], []) := by
  decide
theorem test_parse_crlf :
    parseProgram "MOV AX, 1\r\nADD AX, 2\r\n".toList = (["MOV AX, 1".toList, "ADD AX, 2".toList], []) := by decide
theorem test_parse_label_twice :
    parseProgram "x: MOV AX, 1\nx: MOV BX, 2".toList =
      (["MOV AX, 1".toList, "MOV BX, 2".toList], [("x".toList, 1)]) := by decide
theorem test_parse_colon_inside : parseProgram "MOV AX, [10:20]".toList = (["20]".toList], [("MOV AX, [10".toList, 0)]) := by
  decide
theorem test_parse_bare_label : parseProgram "end:".toList = ([], [("end".toList, 0)]) := by decide

/-! ### Data transfer (T3, T6, T7, T9, T10, T11, T13) -/

theorem test_mov_reduces : (after (exec (.movRI .ax 70000) State.reset)).map (·.readGpr .ax) = some 0x1170#16 := by decide
theorem test_mov_immediate_wraps : (after (exec (.movRI .ax 65536) (regs 7 0 0 0))).map (·.readGpr .ax) = some 0#16 := by decide
theorem test_mov_register : (after (exec (.movRR .ax .bx) (regs 0 0x1234 0 0))).map (·.readGpr .ax) = some 0x1234#16 := by decide
theorem test_mov_sp : (after (exec (.movRR .sp .ax) State.reset)).map (·.readGpr .sp) = some 0#16 := by decide

/-- After T7: AX = 0x1234 stored at 0x10. -/
def stored : State := { regs 0x1234 0xBEEF 0 0 with mem := [(0x10, 0x34#8), (0x11, 0x12#8)] }

theorem test_store_overlap :
    (after (exec (.movMR 0x11 .bx) stored)).map (·.mem) = some [(0x10, 0x34#8), (0x11, 0xEF#8), (0x12, 0xBE#8)] := by decide
theorem test_memory_zero_unlists : memWrite stored.mem 0x10 2 0 = [] := by decide
theorem test_load_odd : (after (exec (.movRM .cx 0x11) stored)).map (·.readGpr .cx) = some 0x0012#16 := by decide
theorem test_store_wraps :
    (after (exec (.movMR 0xFFFFF .ax) (regs 0xABCD 0 0 0))).map (·.mem) = some [(0, 0xAB#8), (0xFFFFF, 0xCD#8)] := by decide
theorem test_load_masks :
    (after (exec (.movRM .cx 0x100000) { State.reset with mem := [(0, 0xAB#8), (0xFFFFF, 0xCD#8)] })).map (·.readGpr .cx) =
      some 0x00AB#16 := by decide

/-! ### ADD, SUB, CMP (A2, A4, A8, A9, B2, B4, B8, B9, K1, K7) -/

def result (i : Instr) (r : Gpr) (s : State) : Option (Word × List Bool) := (after (exec i s)).map (fun t => (t.readGpr r, six t))

theorem test_add_wraps :
    result (.addRR .ax .bx) .ax (regs 0xFFFF 1 0 0) = some (0#16, [true, true, true, true, false, false]) := by decide
theorem test_add_same_register :
    result (.addRR .ax .ax) .ax (regs 0x8001 0 0 0) = some (2#16, [true, false, false, false, false, true]) := by decide
theorem test_add_immediate :
    result (.addRI .ax 70000) .ax State.reset = some (0x1170#16, [false, false, false, false, false, false]) := by decide
theorem test_add_immediate_temp : (after (exec (.addRI .ax 70000) State.reset)).map (·.temp) = some 0x1170#16 := by decide
theorem test_sub_borrows :
    result (.subRR .ax .bx) .ax (regs 0 1 0 0) = some (0xFFFF#16, [true, true, true, false, true, false]) := by decide
theorem test_sub_overflows :
    result (.subRR .ax .bx) .ax (regs 0x7FFF 0xFFFF 0 0) = some (0x8000#16, [true, true, false, false, true, true]) := by decide
theorem test_sub_immediate_zero :
    result (.subRI .cx 1) .cx (regs 0 0 1 0) = some (0#16, [false, true, false, true, false, false]) := by decide
theorem test_sub_immediate_reduces :
    result (.subRI .ax 65537) .ax (regs 5 0 0 0) = some (4#16, [false, false, false, false, false, false]) := by decide
theorem test_cmp_below :
    result (.cmpRR .ax .bx) .ax (regs 3 5 0 0) = some (3#16, [true, false, false, false, true, false]) := by decide
theorem test_cmp_keeps_pf_af :
    result (.cmpRR .ax .bx) .ax
      { regs 4 4 0 0 with flags := { State.reset.flags with pf := true, af := true } } =
      some (4#16, [false, true, true, true, false, false]) := by decide

/-! ### MUL, DIV (M2, M6, V4, V7) -/

def axDx (i : Instr) (s : State) : Option (Word × Word × Bool × Bool) :=
  (after (exec i s)).map (fun t => (t.readGpr .ax, t.readGpr .dx, t.flags.cf, t.flags.of))

theorem test_mul_overflows : axDx (.mulR .bx) (regs 0x100 0x100 0 0) = some (0#16, 1#16, true, true) := by decide
theorem test_mul_reads_old_dx : axDx (.mulR .dx) (regs 2 0 0 3) = some (6#16, 0#16, false, false) := by decide
theorem test_div_truncates : axDx (.divR .bx) (regs 0 2 0 2) = some (0#16, 0#16, false, false) := by decide
theorem test_div_by_dx : axDx (.divR .dx) (regs 1 0 0 3) = some (0#16, 1#16, false, false) := by decide

/-! ### Control transfer and placeholders (J1, J2, J5, J6, J7, J8, PH1) -/

def ipAfter (line : Text) (i : Nat) (zf : Bool) : Option Nat :=
  (after (step { State.reset with
    lines := List.replicate 6 line, ip := i, flags := { State.reset.flags with zf := zf } })).map (·.ip)

theorem test_jmp : ipAfter "JMP 2".toList 1 false = some 3 := by decide
theorem test_jmp_to_zero : ipAfter lineJmp0 5 true = some 1 := by decide
theorem test_jz_taken : ipAfter lineJz4 3 true = some 5 := by decide
theorem test_jz_not_taken : ipAfter lineJz4 3 false = some 4 := by decide
theorem test_jnz_taken : ipAfter lineJnz1 4 false = some 2 := by decide
theorem test_jnz_not_taken : ipAfter lineJnz1 4 true = some 5 := by decide
theorem test_placeholder :
    hostStep (prog [linePush]) =
      (.ok true, { prog [linePush] with
        ip := 1, currentInstruction := some linePush, lastMicroinstructions := [.unimpl linePush] }) := by decide

/-! ### Host (HS1, HS4, S13, R102) -/

theorem test_run_halts :
    (hostRun 2 (prog [lineMov])).map (fun e => (e.1, e.2.readGpr .ax, e.2.ip, e.2.halted, e.2.running)) =
      some (.done, 1#16, 1, true, false) := by decide
theorem test_step_records :
    (hostStep (prog [lineMov])).2.lastMicroinstructions = [.movi (.gpr .ax) 1#16] := by decide
theorem test_empty_program_halts : hostStep State.reset = (.ok false, { State.reset with halted := true }) := by decide
theorem test_status : State.reset.status = .ready ∧ (haltStep State.reset).status = .halted := by decide
theorem test_views : (regs 0x1234 0 0 0).readView .ah = 0x12#8 ∧ (regs 0x1234 0 0 0).readView .al = 0x34#8 := by decide
theorem test_register_numbers : RegId.number (.gpr .bp) = 7 ∧ RegId.number .temp = 13 := by decide

/-! ### Witnesses: the hypotheses of each statement are met -/

theorem witness_memory_canonical : Memory.wf [(0, 0xAB#8), (0xFFFFF, 0xCD#8)] = true := by decide
theorem witness_memory_not_canonical : Memory.wf [(5, 0#8)] = false ∧ Memory.wf [(6, 1#8), (5, 1#8)] = false := by decide
theorem witness_MemoryRoundTrip : memRead (memWrite [(5, 1#8)] 0xFFFFF 2 0xABCD) 0xFFFFF 2 = 0xABCD := by decide
theorem witness_MemWriteIsLittleEndian_top :
    (memWrite [(5, 1#8)] 0xFFFFF 2 0xABCD).read 0xFFFFF = 0xCD#8 ∧ (memWrite [(5, 1#8)] 0xFFFFF 2 0xABCD).read 0 = 0xAB#8 ∧
      (memWrite [(5, 1#8)] 0xFFFFF 2 0xABCD).read 5 = 1#8 := by decide
theorem witness_RegisterWriteTruncates : (State.reset.writeReg .temp 65537).readReg .temp = 1 ∧
    (State.reset.writeReg .temp 65537).readReg (.gpr .sp) = 0xFFFE ∧ (State.reset.writeReg .ip 65535).readReg .ip = 65535 := by
  decide
theorem witness_MovStoreWritesTwoBytes : stored.mem.wf = true := by decide
theorem witness_OnlyMovTouchesMemory_other : touchesMemory (.mulR .ax) = false := rfl
theorem witness_OnlyMovTouchesMemory_load :
    ∀ x ∈ accessedBytes 0x10, Memory.read [(0x10, 0x34#8), (0x11, 0x12#8), (0x12, 9#8)] x = stored.mem.read x := by decide
theorem witness_OnlyMovTouchesMemory_store : ∃ t, exec (.movMR 0xFFFFF .ax) stored = .next t := ⟨_, rfl⟩
theorem witness_DivideQuotientRemainder : (regs 0 2 0 1).readGpr .bx ≠ 0#16 := by decide
theorem witness_DivideQuotientRemainder_fits : ((regs 0 2 0 1).readGpr .dx).toNat < ((regs 0 2 0 1).readGpr .bx).toNat := by
  decide
theorem witness_OnlyDivByZeroFaults : (regs 9 0 0 0).readGpr .bx = 0#16 := rfl
theorem witness_OnlyDivByZeroFaults_fault : exec (.divR .dx) State.reset = .fault (.divideByZero State.reset) := rfl
theorem witness_JumpWritesTarget : fetchLine (prog [lineJmp0]) = some lineJmp0 ∧ decode lineJmp0 = .jmpH 0 := by decide
theorem witness_JumpIfZeroTestsZf : fetchLine (prog [lineJz4]) = some lineJz4 ∧ decode lineJz4 = .jzH 4 := by decide
theorem witness_JumpIfNotZeroTestsZf : fetchLine (prog [lineJnz1]) = some lineJnz1 ∧ decode lineJnz1 = .jnzH 1 := by decide
theorem witness_JumpIfNotZeroTestsZf_others :
    Instr.divR .bx ∈ [Instr.movRI .ax 1, .movRR .ax .bx, .movRM .ax 1, .movMR 1 .bx, .mulR .bx, .divR .bx] ∧
      ∃ t, exec (.divR .bx) (regs 100 7 0 0) = .next t := ⟨by decide, _, rfl⟩
theorem witness_PlaceholderIsNoOp :
    fetchLine (prog [linePush]) = some linePush ∧ decode linePush = .placeholder .unimpl linePush := by decide
theorem witness_InstructionWritesOnlyItsTable : ∃ t, exec (.divR .bx) (regs 100 7 0 0) = .next t := ⟨_, rfl⟩
theorem witness_ExecAppliesLoweringInOrder_next : ∃ t, applyMicro (.movi .temp 3#16) State.reset = .next t := ⟨_, rfl⟩
theorem witness_ExecAppliesLoweringInOrder_fault : ∃ e, applyMicro (.div .ax) State.reset = .fault e := ⟨_, rfl⟩
theorem witness_ZeroFlagSurvivesOtherInstructions :
    (∀ line ∈ (prog [lineMov, linePush]).lines, Flag.zf ∉ flagsWritten (decode line)) ∧
      (okSteps 2 (prog [lineMov, linePush])).isSome = true := by decide
theorem witness_StepRunsDecodedInstruction_halted : (haltStep State.reset).halted = true := rfl
theorem witness_StepRunsDecodedInstruction_outside : (prog [lineMov]).lines.length ≤ { prog [lineMov] with ip := 1 }.ip := by
  decide
theorem witness_StepRunsDecodedInstruction_next :
    (prog [lineMov]).halted = false ∧ (prog [lineMov]).lines[0]? = some lineMov ∧
      ∃ u, exec (decode lineMov)
        { prog [lineMov] with
          currentInstruction := some lineMov, lastMicroinstructions := lower (decode lineMov) } = .next u :=
  ⟨rfl, rfl, _, rfl⟩
theorem witness_StepRunsDecodedInstruction_fault :
    ∃ u, exec (decode lineDiv)
      { prog [lineDiv] with
        currentInstruction := some lineDiv, lastMicroinstructions := lower (decode lineDiv) } = .fault (.divideByZero u) :=
  ⟨_, rfl⟩
theorem witness_IncrementAlwaysFollows :
    fetchLine (prog [lineJmp0]) = some lineJmp0 ∧ (∃ t, step (prog [lineJmp0]) = .next t) ∧ decode lineJmp0 = .jmpH 0 :=
  ⟨by decide, ⟨_, rfl⟩, by decide⟩
theorem witness_IncrementAlwaysFollows_jz :
    decode lineJz4 = .jzH 4 ∧ { State.reset.flags with zf := true }.zf = true ∧ decode lineJnz1 = .jnzH 1 ∧
      State.reset.flags.zf = false ∧ isJump (decode lineMov) = false := by decide
theorem witness_HaltedIsTerminal : (∃ t, step (prog [lineMov]) = .next t) ∧ (haltStep (prog [lineMov])).halted = true ∧
    hostOp .getState (haltStep State.reset) = some (.snapshot (getState (haltStep State.reset)), haltStep State.reset) :=
  ⟨⟨_, rfl⟩, rfl, rfl⟩
theorem witness_HaltedIsTerminal_cleared :
    ∃ r t, hostOp .reset (haltStep State.reset) = some (r, t) ∧ t.halted = false := ⟨_, _, rfl, rfl⟩
theorem witness_fault : ∃ t, step (prog [lineDiv]) = .fault (.divideByZero t) := ⟨_, rfl⟩
theorem witness_run_fault : ∃ kind message t, hostRun 1 (prog [lineDiv]) = some (.fault kind message, t) :=
  ⟨_, _, _, rfl⟩
theorem witness_run_done : ∃ t, hostRun 2 (prog [lineMov]) = some (.done, t) := ⟨_, rfl⟩
theorem witness_RunIsIteratedStep :
    ∃ u, okSteps 1 { prog [lineMov] with running := true } = some u ∧ fetchLine u = none := ⟨_, rfl, rfl⟩

/-- A state that meets the invariant and holds something in every part it speaks of. -/
def busy : State :=
  { prog [lineMov, lineDiv] with
    mem := [(0x10, 0x34#8)], labels := [("end".toList, 2)], ip := 1
    currentInstruction := some lineMov, lastMicroinstructions := lower (decode lineMov) }

theorem witness_invariant : busy.Inv where
  memory := by decide
  segments := rfl
  inertFlags := ⟨rfl, rfl, rfl⟩
  ipRange := fun _ => by decide
  stored := by decide
  labelRange := by decide
  labelNames := by decide
  fetched := by
    intro line h
    cases h
    exact List.mem_cons_self
  recorded := .inr ⟨lineMov, List.mem_cons_self, rfl⟩

theorem witness_SnapshotShowsState : (255 : Nat) < 256 ∧ (haltStep busy).halted = true ∧
    { busy with running := true }.halted = false ∧ { busy with running := true }.running = true := by decide
theorem witness_ExecutionEndsInOneOfThreeWays :
    Completes State.reset ∧ Faults (prog [lineDiv]) ∧ (∃ t, hostStep State.reset = (.ok false, t)) ∧
      ∃ message t, hostStep (prog [lineDiv]) = (.fault .divideByZero message, t) :=
  ⟨⟨0, _, _, rfl, rfl⟩, ⟨0, _, _, _, rfl, rfl⟩, ⟨_, rfl⟩, _, _, rfl⟩
theorem test_request_after_fault :
    ∃ message, (hostRequest .step (prog [lineDiv])).map (fun e => (e.1, e.2.1.ip, e.2.1.status)) =
      some (.stepped (.fault .divideByZero message), 0, .ready) := ⟨_, rfl⟩
theorem witness_HostOperationsKeepInvariant : ∃ r t, hostOp .step busy = some (r, t) := ⟨_, _, rfl⟩
theorem witness_StepKeepsInvariant :
    (∃ t, step busy = .fault (.divideByZero t)) ∧ ∃ t, step { busy with ip := 0 } = .next t := ⟨⟨_, rfl⟩, _, rfl⟩
theorem witness_OnlyEngineMutatesState :
    fetchLine (haltStep busy) = none ∧ ∃ r t, hostOp (.run 1) (haltStep busy) = some (r, t) := ⟨rfl, _, _, rfl⟩

theorem witness_JumpBackLoopsInPlace :
    { prog [lineMov, lineJmp0] with ip := 1 }.halted = false ∧ { prog [lineMov, lineJmp0] with ip := 1 }.ip = 0 + 1 ∧
      (Config.ipWrap16 = true → (0 : Nat) + 1 < 65536) ∧
      (prog [lineMov, lineJmp0]).lines[0 + 1]? = some lineJmp0 ∧ decode lineJmp0 = .jmpH 0 :=
  ⟨rfl, rfl, fun _ => by decide, rfl, by decide⟩

def lineJmpTop : Text := "JMP FFFE".toList

theorem replicate_getElem (n k : Nat) (line : Text) (h : k < n) : (prog (List.replicate n line)).lines[k]? = some line :=
  List.getElem?_replicate_of_lt h

theorem witness_JumpBackLoopsInPlace_top :
    ∃ s : State, s.halted = false ∧ s.ip = 65534 + 1 ∧ (Config.ipWrap16 = true → 65534 + 1 < 65536) ∧
      s.lines[65534 + 1]? = some lineJmpTop ∧ decode lineJmpTop = .jmpH 65534 :=
  ⟨{ prog (List.replicate 65536 lineJmpTop) with ip := 65535 }, rfl, rfl, fun _ => by decide,
    replicate_getElem 65536 65535 lineJmpTop (by decide), by decide⟩

def lineJmpAbove : Text := "JMP FFFF".toList

/-- Above 65535 the hypotheses can be met where IP does not wrap. -/
theorem witness_JumpBackLoopsInPlace_above (hw : Config.ipWrap16 = false) :
    ∃ s : State, s.halted = false ∧ s.ip = 65535 + 1 ∧ (Config.ipWrap16 = true → 65535 + 1 < 65536) ∧
      s.lines[65535 + 1]? = some lineJmpAbove ∧ decode lineJmpAbove = .jmpH 65535 :=
  ⟨{ prog (List.replicate 65537 lineJmpAbove) with ip := 65536 }, rfl, rfl, fun h => by simp [hw] at h,
    replicate_getElem 65537 65536 lineJmpAbove (by decide), by decide⟩

theorem witness_DecodeEncodeRoundTrip : (Instr.placeholder .unimpl linePush).wellFormed = true := by decide
theorem witness_TableWordRoundTrip :
    (Instr.placeholder .unimpl linePush).wellFormed = true ∧
      ∀ c ∈ encode (.placeholder .unimpl linePush), c.toNat < 256 := by
  refine ⟨by decide, ?_⟩
  intro c hc
  have h : (encode (.placeholder .unimpl linePush)).all (fun c => c.toNat < 256) = true := by decide
  simpa using List.all_eq_true.1 h c hc
theorem witness_TableWordRoundTrip_core : (Instr.jmpH 0xADD).isCore = true := rfl
theorem witness_DecodeIgnoresCase : fitsForm "mov ax, [0x1f]".toList = true := by decide
theorem witness_ProgramTextLoadsItsInstructions : ∀ i ∈ [Instr.movRI .ax 5, .jmpH 0], i.isCore = true := by decide

end Sys2Proof.Tests
end

section
/-! What one round of the loop of `run()` does, which operations keep the program store, and what `step()` and `run()` do where
there is no line to execute (10_state.md R47). -/

namespace Sys2Proof.Machine

/-! ### One round of the loop -/

theorem runLoop_succ_of_not_running {s : State} (fuel : Nat) (hr : s.running = false) :
    runLoop (fuel + 1) s = some (.done, { s with running := false }) := by
  simp [runLoop, hr]

theorem runLoop_succ_of_ok {s t : State} (fuel : Nat) (hr : s.running = true) (h : hostStep s = (.ok true, t)) :
    runLoop (fuel + 1) s = runLoop fuel t := by
  simp [runLoop, hr, h]

theorem runLoop_succ_of_done {s t : State} (fuel : Nat) (hr : s.running = true) (h : hostStep s = (.ok false, t)) :
    runLoop (fuel + 1) s = some (.done, { t with running := false }) := by
  simp [runLoop, hr, h]

theorem runLoop_succ_of_fault {s t : State} {k : FaultKind} {message : Text} (fuel : Nat) (hr : s.running = true)
    (h : hostStep s = (.fault k message, t)) : runLoop (fuel + 1) s = some (.fault k message, freeRunning t) := by
  simp [runLoop, hr, h]

/-! ### The program store -/

/-- No round of the loop writes the program store, so no run does. -/
theorem runLoop_store {fuel : Nat} {s t : State} {r : RunReply} (h : runLoop fuel s = some (r, t)) :
    t.lines = s.lines ∧ t.labels = s.labels := by
  induction fuel generalizing s with
  | zero => cases h
  | succ fuel ih =>
    obtain ⟨hlines, hlabels, _⟩ := hostStep_store s
    cases hr : s.running with
    | false =>
      rw [runLoop_succ_of_not_running fuel hr] at h
      cases h
      exact ⟨rfl, rfl⟩
    | true =>
      rcases hostStep_cases s with ⟨_, _, _, hs⟩ | ⟨_, hs⟩ | ⟨_, _, _, _, _, _, hs⟩ <;> rw [hs] at hlines hlabels
      · rw [runLoop_succ_of_ok fuel hr hs] at h
        exact ⟨(ih h).1.trans hlines, (ih h).2.trans hlabels⟩
      · rw [runLoop_succ_of_done fuel hr hs] at h
        cases h
        exact ⟨hlines, hlabels⟩
      · rw [runLoop_succ_of_fault fuel hr hs] at h
        cases h
        exact ⟨hlines, hlabels⟩

theorem hostRun_store {fuel : Nat} {s t : State} {r : RunReply} (h : hostRun fuel s = some (r, t)) :
    t.lines = s.lines ∧ t.labels = s.labels :=
  runLoop_store (s := { s with running := true }) h

/-! ### No line to execute -/

theorem hostStep_of_fetch_none {s : State} (h : fetchLine s = none) : hostStep s = (.ok false, haltStep s) := by
  simp [hostStep, step_of_fetch_none h, h]

/-- Where there is no line, `run()` ends in its first round: it halts, and `running` is false again. -/
theorem hostRun_succ_of_fetch_none {s : State} (fuel : Nat) (h : fetchLine s = none) :
    hostRun (fuel + 1) s = some (.done, { haltStep s with running := false }) := by
  have hstep := hostStep_of_fetch_none (s := { s with running := true }) h
  have hround := runLoop_succ_of_done fuel rfl hstep
  exact hround

/-- Where there is no line, a run that returns has only halted and cleared `running`. -/
theorem hostRun_of_fetch_none {fuel : Nat} {s t : State} {r : RunReply} (hf : fetchLine s = none)
    (h : hostRun fuel s = some (r, t)) : t = { haltStep s with running := false } := by
  cases fuel with
  | zero => cases h
  | succ fuel =>
    rw [hostRun_succ_of_fetch_none fuel hf] at h
    cases h
    rfl

/-! ### What an operation may change (R47) -/

/-- Settles O44: `step()` and `run()` keep the program store (`hostStep_store`, `hostRun_store`), and where there is no line to
execute they leave `haltStep s`, but for `running`. -/
theorem onlyEngineMutatesState : Obligations.OnlyEngineMutatesState := by
  intro op s t r h
  cases op with
  | reset => exact .inl rfl
  | load code => exact .inr (.inl ⟨code, rfl⟩)
  | step =>
    cases h
    obtain ⟨hlines, hlabels, _⟩ := hostStep_store s
    refine .inr (.inr ⟨hlines, hlabels, nofun, fun hf => ?_⟩)
    rw [hostStep_of_fetch_none hf]
    simp
  | run fuel =>
    obtain ⟨⟨reply, u⟩, hrun, hu⟩ := Option.map_eq_some_iff.1 h
    cases hu
    obtain ⟨hlines, hlabels⟩ := hostRun_store hrun
    refine .inr (.inr ⟨hlines, hlabels, nofun, fun hf => ?_⟩)
    rw [hostRun_of_fetch_none hf hrun]
    simp
  | getState =>
    cases h
    exact .inr (.inr ⟨rfl, rfl, fun _ => rfl, fun _ => ⟨rfl, rfl, rfl, rfl, rfl, rfl, rfl, rfl⟩⟩)

end Sys2Proof.Machine
end

section
/-! The sequencer (40_sequencer.md R94 to R97): what `load` leaves, the order of an instruction's micro-ops, how a step ends and
what its increment is added to. -/

namespace Sys2Proof.Machine

/-! ### Micro-ops in list order (R96) -/

@[simp] theorem applyMicros_nil (s : State) : applyMicros [] s = .next s := rfl

theorem applyMicros_cons (u : MicroOp) (us : List MicroOp) (s : State) :
    applyMicros (u :: us) s = andThen (applyMicro u s) (applyMicros us) := rfl

theorem applyMicros_cons_of_next {u : MicroOp} {s t : State} (us : List MicroOp) (h : applyMicro u s = .next t) :
    applyMicros (u :: us) s = applyMicros us t := by
  rw [applyMicros_cons, h, andThen_next]

theorem applyMicros_cons_of_fault {u : MicroOp} {s : State} {e : Fault} (us : List MicroOp)
    (h : applyMicro u s = .fault e) : applyMicros (u :: us) s = .fault e := by
  rw [applyMicros_cons, h, andThen_fault]

@[simp] theorem applyMicros_singleton (u : MicroOp) (s : State) : applyMicros [u] s = applyMicro u s :=
  andThen_next_right (applyMicro u s)

/-- The meaning of an instruction is its lowering. Only DIV's micro-op may fault, so only its `andThen` waits for the state;
every other list computes to the instruction's own definition. -/
theorem exec_eq_applyMicros_lower (i : Instr) (s : State) : exec i s = applyMicros (lower i) s := by
  cases i with
  | divR src => exact (applyMicros_singleton (.div src) s).symm
  | placeholder kind line => cases kind <;> rfl
  | _ => rfl

/-- Settles O34: `exec_eq_applyMicros_lower`, and the two ways a list of micro-ops goes on. -/
theorem execAppliesLoweringInOrder : Obligations.ExecAppliesLoweringInOrder :=
  ⟨exec_eq_applyMicros_lower, applyMicros_nil, fun _ us _ _ h => applyMicros_cons_of_next us h,
    fun _ us _ _ h => applyMicros_cons_of_fault us h⟩

/-! ### How a step ends (R95) -/

/-- A step goes on to a next state only by the increment of what its instruction left. -/
theorem finishStep_eq_next_iff (before t : State) (r : Result) :
    finishStep before r = .next t ↔ ∃ u, r = .next u ∧ t = advanceIp u := by
  constructor
  · intro h
    match r with
    | .next u =>
      cases h
      exact ⟨u, rfl, rfl⟩
    | .fault (.divideByZero _) => cases h
    | .refused _ => cases h
  · rintro ⟨u, rfl, rfl⟩
    rfl

theorem step_of_exec_next {s u : State} {line : Text} (hf : fetchLine s = some line)
    (he : exec (decode line) (recordStep s line) = .next u) : step s = .next (advanceIp u) := by
  rw [step_of_fetch_some hf]
  exact (finishStep_eq_next_iff ..).2 ⟨u, he, rfl⟩

theorem step_of_exec_fault {s u : State} {line : Text} (hf : fetchLine s = some line)
    (he : exec (decode line) (recordStep s line) = .fault (.divideByZero u)) :
    step s = .fault (.divideByZero (settleFault s u)) := by
  rw [step_of_fetch_some hf, he]
  rfl

theorem hostStep_of_step_next {s t : State} {line : Text} (hf : fetchLine s = some line) (h : step s = .next t) :
    hostStep s = (.ok true, t) := by
  simp [hostStep, h, hf]

/-- Settles O36: the fetch decides whether the step only halts, and where there is a line the outcome of the instruction decides
between the increment and the fault. -/
theorem stepRunsDecodedInstruction : Obligations.StepRunsDecodedInstruction := by
  refine ⟨fun s h => ?_, fun s line hh hl => ?_⟩
  · have hf : fetchLine s = none := (fetchLine_eq_none_iff s).2 h
    exact ⟨step_of_fetch_none hf, hostStep_of_fetch_none hf⟩
  · have hf : fetchLine s = some line := (fetchLine_eq_some_iff s line).2 ⟨hh, hl⟩
    refine ⟨fun u he => ?_, fun u he => ?_⟩
    · have hs : step s = .next (advanceIp u) := step_of_exec_next hf he
      exact ⟨hs, hostStep_of_step_next hf hs⟩
    · have hs : step s = .fault (.divideByZero (settleFault s u)) := step_of_exec_fault hf he
      exact ⟨errorMessage (settleFault s u), settleFault s u, hs, hostStep_of_fault hs, settleFault_ip s u⟩

/-! ### What the increment is added to (R97) -/

theorem execNext_ip_of_not_jump {i : Instr} (s : State) (h : isJump i = false) : (execNext i s).ip = s.ip := by
  cases i with
  | jmpH t => cases h
  | jzH t => cases h
  | jnzH t => cases h
  | _ => rfl

theorem execNext_ip_of_taken {i : Instr} {s : State} {tgt : Nat}
    (h : i = .jmpH tgt ∨ (i = .jzH tgt ∧ s.flags.zf = true) ∨ (i = .jnzH tgt ∧ s.flags.zf = false)) :
    (execNext i s).ip = ipw tgt := by
  rcases h with rfl | ⟨rfl, hz⟩ | ⟨rfl, hz⟩
  · rfl
  · simp [execNext, microJz, hz]
  · simp [execNext, microJnz, hz]

/-- Settles O37: the step's result is `advanceIp` of what the instruction left, which is the old IP outside jumps and the target
after a taken one. -/
theorem incrementAlwaysFollows : Obligations.IncrementAlwaysFollows := by
  intro s t line hf hs
  rw [step_of_fetch_some hf] at hs
  obtain ⟨u, he, rfl⟩ := (finishStep_eq_next_iff ..).1 hs
  have hu : u = execNext (decode line) (recordStep s line) := exec_next he
  refine ⟨⟨u, (exec_eq_applyMicros_lower ..).symm.trans he, rfl⟩, fun hj => ?_, fun tgt ht => ?_⟩
  · rw [advanceIp_ip, hu, execNext_ip_of_not_jump _ hj, recordStep_ip]
  · rw [advanceIp_ip, hu, execNext_ip_of_taken (s := recordStep s line) ht]

/-! ### Load (R94) -/

/-- A loaded engine is not halted and stands at line 0, so the next fetch is the program's first line. -/
theorem fetchLine_hostLoad (code : Text) (s : State) :
    fetchLine (hostLoad code s) = (parseProgram code).1.head? :=
  List.head?_eq_getElem?.symm

/-- Settles O4: `hostLoad` is the reset state with the parsed program, so every item but the fetch is a field of it. -/
theorem loadResetsThenParses : Obligations.LoadResetsThenParses := fun code s =>
  ⟨rfl, rfl, rfl, rfl, rfl, rfl, rfl, fetchLine_hostLoad code s⟩

end Sys2Proof.Machine
end

section
/-! MOV into a register (41_data_transfer.md R106, R107): a register write changes that register alone, and the immediate and the
register form are each one such write. -/

namespace Sys2Proof.Machine

/-! ### A register write -/

/-- A write to a general register leaves every other part of the state as it was. -/
theorem writeGpr_frame (s : State) (r : Gpr) (v : Word) :
    GprsKept [r] s (s.writeGpr r v) ∧ FlagsKept [] s (s.writeGpr r v) ∧ MemKept [] s (s.writeGpr r v) ∧
      ControlKept s (s.writeGpr r v) ∧ (s.writeGpr r v).temp = s.temp ∧ (s.writeGpr r v).ip = s.ip :=
  ⟨gprsKept_writeGpr s r v, fun _ _ => rfl, fun _ _ => rfl, ⟨rfl, rfl, rfl, rfl, rfl, rfl, rfl, rfl⟩, rfl, rfl⟩

/-- Writing back what a register holds changes nothing. -/
@[simp] theorem writeGpr_readGpr (s : State) (r : Gpr) : s.writeGpr r (s.readGpr r) = s :=
  congrArg (fun g => { s with gprs := g }) (GprFile.set_get s.gprs r)

/-! ### The two forms -/

@[simp] theorem immediate_toNat (n : Nat) : (immediate n).toNat = n % 65536 := BitVec.toNat_ofNat n 16

theorem exec_movRI (d : Gpr) (n : Nat) (s : State) : exec (.movRI d n) s = .next (s.writeGpr d (immediate n)) := rfl

theorem exec_movRR (d src : Gpr) (s : State) : exec (.movRR d src) s = .next (s.writeGpr d (s.readGpr src)) := rfl

/-- Settles O15: the instruction writes the reduced literal to `d` (`exec_movRI`), and a register write has the frame
`writeGpr_frame`. -/
theorem movImmediateWritesLiteral : Obligations.MovImmediateWritesLiteral := by
  refine ⟨fun d n s => ⟨_, exec_movRI d n s, ?_, writeGpr_frame s d (immediate n)⟩, fun _ _ => rfl, fun _ _ => rfl⟩
  rw [readGpr_writeGpr_same, immediate_toNat]

/-- Settles O16: the instruction writes the source's value to `d` (`exec_movRR`); where `d` is the source, that writes back what
the register holds. -/
theorem movRegisterCopies : Obligations.MovRegisterCopies := by
  intro d src s
  obtain ⟨hgprs, hflags, hmem, hcontrol, htemp, hip⟩ := writeGpr_frame s d (s.readGpr src)
  refine ⟨_, exec_movRR d src s, readGpr_writeGpr_same .., hgprs, hflags, hmem, hcontrol, htemp, hip, rfl, ?_⟩
  rintro rfl
  exact writeGpr_readGpr s d

end Sys2Proof.Machine
end

section
/-! ADD and SUB (42_arithmetic.md R110, R111, R113 to R116): the parity as a count of bits, what each flag of an addition says,
and that the two micro-ops change their destination and the six flags alone. -/

namespace Sys2Proof.Machine

/-! ### Parity (R110) -/

/-- `popcount` counts the bits of the value that are 1. -/
theorem popcount_eq_length_filter (k v : Nat) :
    popcount k v = ((List.range k).filter (fun i => v.testBit i)).length := by
  induction k generalizing v with
  | zero => rfl
  | succ k ih =>
    have hshift : (fun i => v.testBit i) ∘ Nat.succ = fun i => (v / 2).testBit i :=
      funext fun i => Nat.testBit_succ v i
    rw [popcount, ih, List.range_succ_eq_map, List.filter_cons, List.filter_map, hshift, Nat.testBit_zero]
    rcases Nat.mod_two_eq_zero_or_one v with h | h
    · simp [h]
    · simp [h, Nat.add_comm]

theorem parity_iff (r : Word) :
    parity r = true ↔ ((List.range 8).filter (fun i => r.getLsbD i)).length % 2 = 0 := by
  rw [parity, popcount_eq_length_filter, beq_iff_eq]
  rfl

/-- Settles O11: the general part is `parity_iff`, and the examples are evaluated. -/
theorem parityCountsLowByte : Obligations.ParityCountsLowByte :=
  ⟨parity_iff, by decide, by decide, by decide⟩

/-! ### One bit of a word -/

/-- Masking with a power of 2 asks for that bit. -/
theorem and_twoPow_ne_zero_iff (v : Word) {i : Nat} (hi : i < 16) :
    v &&& BitVec.twoPow 16 i ≠ 0#16 ↔ v.getLsbD i = true := by
  have hpow : BitVec.twoPow 16 i ≠ 0#16 := by
    intro h
    simpa [hi] using congrArg (fun w => w.getLsbD i) h
  rw [BitVec.and_twoPow]
  by_cases h : v.getLsbD i = true
  · simp [h, hpow]
  · simp [h]

theorem isZero_iff (r : Word) : isZero r = true ↔ r.toNat = 0 := by
  rw [isZero, beq_iff_eq, BitVec.toNat_eq]
  rfl

/-- A sum's bit differs from the exclusive or of the operands' bits exactly where a carry comes in. -/
theorem getLsbD_xor_xor_add (a b : Word) {i : Nat} (hi : i < 16) :
    (a ^^^ b ^^^ (a + b)).getLsbD i = BitVec.carry i a b false := by
  rw [BitVec.getLsbD_xor, BitVec.getLsbD_xor, BitVec.getLsbD_add hi]
  cases a.getLsbD i <;> cases b.getLsbD i <;> simp

/-! ### The flags of an addition (R111) -/

theorem addFlags_cf_iff (f : Flags) (a b : Word) : (addFlags f a b).cf = true ↔ a.toNat + b.toNat > 0xFFFF :=
  decide_eq_true_iff

theorem addFlags_af_iff (f : Flags) (a b : Word) :
    (addFlags f a b).af = true ↔ a.toNat % 16 + b.toNat % 16 > 15 :=
  decide_eq_true_iff

/-- The carry out of the low four bits is the carry into bit 4. -/
theorem addFlags_af_iff_bit4 (f : Flags) (a b : Word) :
    (addFlags f a b).af = true ↔ (a ^^^ b ^^^ (a + b)) &&& 0x10#16 ≠ 0#16 := by
  have hbit : (a ^^^ b ^^^ (a + b)) &&& 0x10#16 ≠ 0#16 ↔ BitVec.carry 4 a b false = true := by
    rw [← getLsbD_xor_xor_add a b (i := 4) (by decide)]
    exact and_twoPow_ne_zero_iff _ (i := 4) (by decide)
  rw [hbit, addFlags_af_iff, BitVec.carry, decide_eq_true_iff, Bool.toNat_false]
  omega

theorem addFlags_zf_iff (f : Flags) (a b : Word) :
    (addFlags f a b).zf = true ↔ (a.toNat + b.toNat) % 65536 = 0 :=
  (isZero_iff (a + b)).trans (by rw [BitVec.toNat_add])

theorem addFlags_sf_iff (f : Flags) (a b : Word) :
    (addFlags f a b).sf = true ↔ 32768 ≤ (a.toNat + b.toNat) % 65536 :=
  (bit15_iff (a + b)).trans (by rw [BitVec.toNat_add])

theorem addFlags_of_iff (f : Flags) (a b : Word) :
    (addFlags f a b).of = true ↔ (a ^^^ (a + b)) &&& (b ^^^ (a + b)) &&& 0x8000#16 ≠ 0#16 :=
  bne_iff_ne

theorem addFlags_of_iff_bit15 (f : Flags) (a b : Word) :
    (addFlags f a b).of = true ↔ a.getLsbD 15 = b.getLsbD 15 ∧ (a + b).getLsbD 15 ≠ a.getLsbD 15 := by
  rw [addFlags_of_iff, mask15_iff, BitVec.getLsbD_and, BitVec.getLsbD_xor, BitVec.getLsbD_xor]
  cases a.getLsbD 15 <;> cases b.getLsbD 15 <;> cases (a + b).getLsbD 15 <;> decide

/-- Settles O12: one lemma for each flag, and the three flags an addition does not name are fields it copies. -/
theorem additionFlags : Obligations.AdditionFlags := fun f a b =>
  ⟨addFlags_cf_iff f a b, rfl, addFlags_af_iff f a b, addFlags_af_iff_bit4 f a b, addFlags_zf_iff f a b,
    addFlags_sf_iff f a b, addFlags_of_iff f a b, addFlags_of_iff_bit15 f a b, rfl, rfl, rfl⟩

/-! ### The micro-ops ADDR and SUBR -/

/-- A register written with new values of the arithmetic flags: everything else is as before. -/
theorem writeGpr_arithFlags_frame {s t : State} {d : Gpr} {v : Word} {f : Flags}
    (ht : t = { s.writeGpr d v with flags := f }) (hf : ∀ g, g ∉ arithFlags → f.get g = s.flags.get g) :
    GprsKept [d] s t ∧ FlagsKept arithFlags s t ∧ MemKept [] s t ∧ ControlKept s t ∧ t.temp = s.temp ∧ t.ip = s.ip := by
  subst ht
  obtain ⟨hgprs, _, hmem, hcontrol, htemp, hip⟩ := writeGpr_frame s d v
  exact ⟨hgprs, hf, hmem, hcontrol, htemp, hip⟩

theorem microAddr_frame (d : Gpr) (src : GprOrTemp) (s : State) :
    GprsKept [d] s (microAddr d src s) ∧ FlagsKept arithFlags s (microAddr d src s) ∧ MemKept [] s (microAddr d src s) ∧
      ControlKept s (microAddr d src s) ∧ (microAddr d src s).temp = s.temp ∧ (microAddr d src s).ip = s.ip :=
  writeGpr_arithFlags_frame rfl (addFlags_kept _ _ _)

theorem microSubr_frame (d : Gpr) (src : GprOrTemp) (s : State) :
    GprsKept [d] s (microSubr d src s) ∧ FlagsKept arithFlags s (microSubr d src s) ∧ MemKept [] s (microSubr d src s) ∧
      ControlKept s (microSubr d src s) ∧ (microSubr d src s).temp = s.temp ∧ (microSubr d src s).ip = s.ip :=
  writeGpr_arithFlags_frame rfl (subFlags_kept _ _ _)

theorem microAddr_toNat (d : Gpr) (src : GprOrTemp) (s : State) :
    ((microAddr d src s).readGpr d).toNat = ((s.readGpr d).toNat + (s.readSource src).toNat) % 65536 :=
  (congrArg BitVec.toNat (readGpr_writeGpr_same ..)).trans (BitVec.toNat_add ..)

theorem microSubr_toNat (d : Gpr) (src : GprOrTemp) (s : State) :
    (((microSubr d src s).readGpr d).toNat : Int) =
      ((s.readGpr d).toNat - (s.readSource src).toNat : Int) % 65536 := by
  have h : (microSubr d src s).readGpr d = s.readGpr d - s.readSource src := readGpr_writeGpr_same ..
  rw [h, BitVec.toNat_sub]
  have := (s.readSource src).isLt
  omega

/-! ### The four forms (R113 to R116) -/

theorem exec_addRR (d src : Gpr) (s : State) : exec (.addRR d src) s = .next (microAddr d (.gpr src) s) := rfl

theorem exec_addRI (d : Gpr) (n : Nat) (s : State) :
    exec (.addRI d n) s = .next (microAddr d .temp (s.withTemp (immediate n))) := rfl

theorem exec_subRR (d src : Gpr) (s : State) : exec (.subRR d src) s = .next (microSubr d (.gpr src) s) := rfl

theorem exec_subRI (d : Gpr) (n : Nat) (s : State) :
    exec (.subRI d n) s = .next (microSubr d .temp (s.withTemp (immediate n))) := rfl

@[simp] theorem readGpr_withTemp (s : State) (v : Word) (r : Gpr) : (s.withTemp v).readGpr r = s.readGpr r := rfl

@[simp] theorem readSource_temp_withTemp (s : State) (v : Word) : (s.withTemp v).readSource .temp = v := rfl

/-- Settles O20: the instruction is ADDR from a register. -/
theorem addRegistersResult : Obligations.AddRegistersResult := by
  intro d src s
  obtain ⟨hgprs, hflags, hmem, hcontrol, htemp, hip⟩ := microAddr_frame d (.gpr src) s
  exact ⟨_, exec_addRR d src s, microAddr_toNat d (.gpr src) s, rfl, hgprs, hflags, hmem, hcontrol, htemp, hip, rfl⟩

/-- Settles O21: the instruction is ADDR from TEMP, in the state whose TEMP holds the reduced literal. -/
theorem addImmediateResult : Obligations.AddImmediateResult := by
  intro d n s
  have hsum := microAddr_toNat d .temp (s.withTemp (immediate n))
  rw [readGpr_withTemp, readSource_temp_withTemp, immediate_toNat] at hsum
  obtain ⟨hgprs, hflags, hmem, hcontrol, htemp, hip⟩ := microAddr_frame d .temp (s.withTemp (immediate n))
  exact ⟨_, exec_addRI d n s, hsum, rfl, (congrArg BitVec.toNat htemp).trans (immediate_toNat n), hgprs, hflags, hmem,
    hcontrol, hip, rfl⟩

/-- Settles O22: the instruction is SUBR from a register. -/
theorem subRegistersResult : Obligations.SubRegistersResult := by
  intro d src s
  obtain ⟨hgprs, hflags, hmem, hcontrol, htemp, hip⟩ := microSubr_frame d (.gpr src) s
  exact ⟨_, exec_subRR d src s, microSubr_toNat d (.gpr src) s, rfl, hgprs, hflags, hmem, hcontrol, htemp, hip, rfl⟩

/-- Settles O23: the instruction is SUBR from TEMP, in the state whose TEMP holds the reduced literal. -/
theorem subImmediateResult : Obligations.SubImmediateResult := by
  intro d n s
  have hdiff := microSubr_toNat d .temp (s.withTemp (immediate n))
  rw [readGpr_withTemp, readSource_temp_withTemp, immediate_toNat] at hdiff
  obtain ⟨hgprs, hflags, hmem, hcontrol, htemp, hip⟩ := microSubr_frame d .temp (s.withTemp (immediate n))
  exact ⟨_, exec_subRI d n s, hdiff, rfl, (congrArg BitVec.toNat htemp).trans (immediate_toNat n), hgprs, hflags, hmem,
    hcontrol, hip, rfl⟩

end Sys2Proof.Machine
end

section
/-! Control transfer (43_control_transfer.md R121 to R123): an instruction that writes IP alone, and the test of ZF. -/

namespace Sys2Proof.Machine

/-! ### A change of IP -/

/-- A change of IP leaves every other part of the state as it was. -/
theorem ip_update_frame (s : State) (v : Nat) :
    GprsKept [] s { s with ip := v } ∧ FlagsKept [] s { s with ip := v } ∧ MemKept [] s { s with ip := v } ∧
      ControlKept s { s with ip := v } ∧ { s with ip := v }.temp = s.temp :=
  ⟨fun _ _ => rfl, fun _ _ => rfl, fun _ _ => rfl, ⟨rfl, rfl, rfl, rfl, rfl, rfl, rfl, rfl⟩, rfl⟩

/-! ### JZ (R122) -/

/-- JZ changes IP alone, and that only where ZF is set. -/
theorem microJz_eq_ip_update (tgt : Nat) (s : State) :
    microJz tgt s = { s with ip := if s.flags.zf then ipw tgt else s.ip } := by
  unfold microJz
  cases s.flags.zf with
  | true => rfl
  | false => rfl

theorem exec_jzH (tgt : Nat) (s : State) :
    exec (.jzH tgt) s = .next { s with ip := if s.flags.zf then ipw tgt else s.ip } :=
  congrArg _ (microJz_eq_ip_update tgt s)

/-- The step that runs JZ adds 1 to the target or to the old IP. -/
theorem step_ip_of_jzH {tgt : Nat} {line : Text} {s : State} (hf : fetchLine s = some line)
    (hd : decode line = .jzH tgt) :
    ∃ t, step s = .next t ∧ t.ip = (if s.flags.zf then ipw (ipw tgt + 1) else ipw (s.ip + 1)) := by
  have he := exec_jzH tgt (recordStep s line)
  rw [← hd] at he
  refine ⟨_, step_of_exec_next hf he, ?_⟩
  rw [advanceIp_ip, recordStep_flags, recordStep_ip]
  cases s.flags.zf with
  | true => rfl
  | false => rfl

/-- Settles O29: the instruction is a change of IP (`exec_jzH`), which has the frame `ip_update_frame`, and the step is
`step_ip_of_jzH`. -/
theorem jumpIfZeroTestsZf : Obligations.JumpIfZeroTestsZf := by
  refine ⟨fun tgt s => ?_, fun _ _ _ hf hd => step_ip_of_jzH hf hd, rfl⟩
  obtain ⟨hgprs, hflags, hmem, hcontrol, htemp⟩ := ip_update_frame s (if s.flags.zf then ipw tgt else s.ip)
  exact ⟨_, exec_jzH tgt s, rfl, hgprs, hflags, hmem, hcontrol, htemp, rfl⟩

end Sys2Proof.Machine
end

section
/-! The placeholder (44_placeholders.md R127): the instruction of a line that fits no form changes nothing, so its step leaves
what the fetch recorded and the increment. -/

namespace Sys2Proof.Machine

theorem exec_placeholder (kind : PlaceholderKind) (text : Text) (s : State) :
    exec (.placeholder kind text) s = .next s := rfl

/-- Either kind lowers to one micro-op, and the query R128 answers true of it. -/
theorem lower_placeholder (kind : PlaceholderKind) (text : Text) :
    ∃ u, lower (.placeholder kind text) = [u] ∧ u.isPlaceholder = true := by
  cases kind with
  | unimpl => exact ⟨_, rfl, rfl⟩
  | malformed => exact ⟨_, rfl, rfl⟩

/-- The step that holds a placeholder is the record of the line and the increment, with nothing in between. -/
theorem hostStep_of_placeholder {kind : PlaceholderKind} {text line : Text} {s : State} (hf : fetchLine s = some line)
    (hd : decode line = .placeholder kind text) : hostStep s = (.ok true, advanceIp (recordStep s line)) := by
  have he : exec (decode line) (recordStep s line) = .next (recordStep s line) := by
    rw [hd, exec_placeholder]
  exact hostStep_of_step_next hf (step_of_exec_next hf he)

/-- The premises of the step are met by a line of the kind MALFORMED too: a jump to a label. -/
theorem exists_step_of_malformed : ∃ (text line : Text) (s : State), fetchLine s = some line ∧
    decode line = .placeholder .malformed text ∧ hostStep s = (.ok true, advanceIp (recordStep s line)) := by
  have hd : decode "JMP loop".toList = .placeholder .malformed "JMP loop".toList := by decide
  exact ⟨_, _, { State.reset with lines := ["JMP loop".toList] }, rfl, hd, hostStep_of_placeholder rfl hd⟩

/-- Settles O31: a placeholder answers the state it is given (`exec_placeholder`), so its step is `hostStep_of_placeholder`,
whose record is the lowering of the placeholder (`lower_placeholder`). -/
theorem placeholderIsNoOp : Obligations.PlaceholderIsNoOp := by
  refine ⟨exec_placeholder, fun kind text line s hf hd => ⟨?_, lower_placeholder kind text⟩⟩
  rw [hostStep_of_placeholder hf hd, ← hd]
  rfl

end Sys2Proof.Machine
end

section
/-! Reset (70_reset_and_hazards.md R147, with 90_conflicts.md C9): what each register and each flag reads after `reset()`, from
any state. -/

namespace Sys2Proof.Machine

@[simp] theorem hostReset_readGpr (s : State) (r : Gpr) :
    (hostReset s).readGpr r = if r = .sp then 0xFFFE#16 else 0#16 := by
  cases r <;> rfl

@[simp] theorem hostReset_segs_get (s : State) (r : Seg) : (hostReset s).segs.get r = 0#16 := by
  cases r <;> rfl

@[simp] theorem hostReset_flags_get (s : State) (f : Flag) : (hostReset s).flags.get f = false := by
  cases f <;> rfl

/-- The engine is Ready because reset clears both status bits. -/
@[simp] theorem hostReset_status (s : State) : (hostReset s).status = .ready := rfl

/-- Settles O1: one lemma for each register file, the flags and the status; IP and `halted` are fields of the reset state. -/
theorem resetLeavesStatedValues : Obligations.ResetLeavesStatedValues := fun s =>
  ⟨hostReset_readGpr s, hostReset_segs_get s, hostReset_flags_get s, rfl, rfl, hostReset_status s⟩

end Sys2Proof.Machine
end

section
/-! What an instruction writes (10_state.md R27, R32, R35; 70_reset_and_hazards.md R150): one frame for every instruction, read off
its row of the state tables, which later proofs use in place of the instruction's definition. -/

namespace Sys2Proof.Machine

/-- `t` differs from `s` only in what the rows of the state tables list for `i`. -/
def WritesOnlyTable (i : Instr) (s t : State) : Prop :=
  GprsKept (gprsWritten i) s t ∧ FlagsKept (flagsWritten i) s t ∧ MemKept (bytesWritten i) s t ∧ ControlKept s t ∧
    (writesTemp i = false → t.temp = s.temp) ∧ (isJump i = false → t.ip = s.ip)

theorem writesOnlyTable_of_frame {i : Instr} {s t : State}
    (h : GprsKept (gprsWritten i) s t ∧ FlagsKept (flagsWritten i) s t ∧ MemKept (bytesWritten i) s t ∧
      ControlKept s t ∧ t.temp = s.temp ∧ t.ip = s.ip) : WritesOnlyTable i s t :=
  let ⟨hgprs, hflags, hmem, hcontrol, htemp, hip⟩ := h
  ⟨hgprs, hflags, hmem, hcontrol, fun _ => htemp, fun _ => hip⟩

/-! ### Frames of single updates -/

theorem controlKept_refl (s : State) : ControlKept s s := ⟨rfl, rfl, rfl, rfl, rfl, rfl, rfl, rfl⟩

/-- A 16-bit store changes its two bytes alone. -/
theorem memKept_writeDirect (s : State) (a : Nat) (v : Word) : MemKept (accessedBytes a) s (s.writeDirect a v) := by
  intro x hx
  simp only [accessedBytes, List.mem_cons, List.not_mem_nil, or_false, not_or] at hx
  exact read_memWrite_two_other s.mem a v.toNat x hx.1 hx.2

/-- AX and DX written one after the other: everything else is as before. -/
theorem writeAxDx_frame (s : State) (v w : Word) :
    GprsKept [.ax, .dx] s ((s.writeGpr .ax v).writeGpr .dx w) ∧ FlagsKept [] s ((s.writeGpr .ax v).writeGpr .dx w) ∧
      MemKept [] s ((s.writeGpr .ax v).writeGpr .dx w) ∧ ControlKept s ((s.writeGpr .ax v).writeGpr .dx w) ∧
      ((s.writeGpr .ax v).writeGpr .dx w).temp = s.temp ∧ ((s.writeGpr .ax v).writeGpr .dx w).ip = s.ip := by
  refine ⟨fun r hr => ?_, fun _ _ => rfl, fun _ _ => rfl, controlKept_refl s, rfl, rfl⟩
  simp only [List.mem_cons, List.not_mem_nil, or_false, not_or] at hr
  rw [readGpr_writeGpr_other _ _ _ _ hr.2, readGpr_writeGpr_other _ _ _ _ hr.1]

/-- JNZ changes IP alone, and that only where ZF is clear. -/
theorem microJnz_eq_ip_update (tgt : Nat) (s : State) :
    microJnz tgt s = { s with ip := if s.flags.zf then s.ip else ipw tgt } := by
  unfold microJnz
  cases s.flags.zf with
  | true => rfl
  | false => rfl

/-- A jump's row lists IP and nothing else. -/
theorem writesOnlyTable_ip_update {i : Instr} (hi : isJump i = true) (s : State) (v : Nat) :
    WritesOnlyTable i s { s with ip := v } :=
  ⟨fun _ _ => rfl, fun _ _ => rfl, fun _ _ => rfl, controlKept_refl s, fun _ => rfl, fun h => absurd hi (by simp [h])⟩

/-! ### Every instruction -/

/-- What an instruction leaves differs from what it found only in its table rows. -/
theorem execNext_writesOnlyTable (i : Instr) (s : State) : WritesOnlyTable i s (execNext i s) := by
  cases i with
  | movRI d n => exact writesOnlyTable_of_frame (writeGpr_frame s d _)
  | movRR d src => exact writesOnlyTable_of_frame (writeGpr_frame s d _)
  | movRM d a => exact writesOnlyTable_of_frame (writeGpr_frame s d _)
  | movMR a src =>
    exact ⟨fun _ _ => rfl, fun _ _ => rfl, memKept_writeDirect s a _, controlKept_refl s, fun _ => rfl, fun _ => rfl⟩
  | addRR d src => exact writesOnlyTable_of_frame (microAddr_frame d (.gpr src) s)
  | addRI d n =>
    obtain ⟨hgprs, hflags, hmem, hcontrol, _, hip⟩ := microAddr_frame d .temp (s.withTemp (immediate n))
    exact ⟨hgprs, hflags, hmem, hcontrol, nofun, fun _ => hip⟩
  | subRR d src => exact writesOnlyTable_of_frame (microSubr_frame d (.gpr src) s)
  | subRI d n =>
    obtain ⟨hgprs, hflags, hmem, hcontrol, _, hip⟩ := microSubr_frame d .temp (s.withTemp (immediate n))
    exact ⟨hgprs, hflags, hmem, hcontrol, nofun, fun _ => hip⟩
  | cmpRR p q =>
    exact ⟨fun _ _ => rfl, cmpFlags_kept _ _ _, fun _ _ => rfl, controlKept_refl s, fun _ => rfl, fun _ => rfl⟩
  | mulR src =>
    obtain ⟨hgprs, _, hmem, hcontrol, htemp, hip⟩ := writeAxDx_frame s _ _
    exact ⟨hgprs, mulFlags_kept _ _, hmem, hcontrol, fun _ => htemp, fun _ => hip⟩
  | divR src => exact writesOnlyTable_of_frame (writeAxDx_frame s _ _)
  | jmpH tgt => exact writesOnlyTable_ip_update rfl s (ipw tgt)
  | jzH tgt =>
    rw [execNext, microJz_eq_ip_update]
    exact writesOnlyTable_ip_update rfl s _
  | jnzH tgt =>
    rw [execNext, microJnz_eq_ip_update]
    exact writesOnlyTable_ip_update rfl s _
  | placeholder kind line =>
    exact ⟨fun _ _ => rfl, fun _ _ => rfl, fun _ _ => rfl, controlKept_refl s, fun _ => rfl, fun _ => rfl⟩

/-- Settles O33: an instruction that completes leaves `execNext`, whose frame is `execNext_writesOnlyTable`. -/
theorem instructionWritesOnlyItsTable : Obligations.InstructionWritesOnlyItsTable := by
  intro i s t h
  rw [exec_next h]
  exact execNext_writesOnlyTable i s

end Sys2Proof.Machine
end

section
/-! The machine invariant (10_state.md R28, R36, R40 to R42): kept by every instruction, so by every step. -/

namespace Sys2Proof.Machine

/-! ### Reset -/

/-- Settles O3: every part of the reset state is empty or 0. -/
theorem resetMeetsInvariant : Obligations.ResetMeetsInvariant where
  memory := wf_reset
  segments := rfl
  inertFlags := ⟨rfl, rfl, rfl⟩
  ipRange := fun _ => by decide
  stored := nofun
  labelRange := nofun
  labelNames := List.nodup_nil
  fetched := nofun
  recorded := .inl rfl

/-! ### Instructions -/

/-- No instruction writes TF, IF or DF. -/
theorem inertFlags_not_written (i : Instr) :
    .tf ∉ flagsWritten i ∧ .if_ ∉ flagsWritten i ∧ .df ∉ flagsWritten i := by
  cases i <;> simp [flagsWritten, arithFlags, compareFlags, productFlags]

/-- The only instruction that writes memory writes it with MemWrite. -/
theorem execNext_mem_wf (i : Instr) {s : State} (h : s.mem.wf = true) : (execNext i s).mem.wf = true := by
  cases i with
  | movMR a src => exact wf_memWrite s.mem a 2 _ h
  | divR src => rwa [execNext, State.writeGpr_mem, State.writeGpr_mem]
  | jzH tgt =>
    rw [execNext, microJz_eq_ip_update]
    exact h
  | jnzH tgt =>
    rw [execNext, microJnz_eq_ip_update]
    exact h
  | _ => exact h

/-- An instruction leaves IP as it was or writes it through `ipw`. -/
theorem execNext_ip (i : Instr) (s : State) : (execNext i s).ip = s.ip ∨ ∃ v, (execNext i s).ip = ipw v := by
  cases i with
  | divR src => exact .inl (by rw [execNext, State.writeGpr_ip, State.writeGpr_ip])
  | jmpH tgt => exact .inr ⟨tgt, rfl⟩
  | jzH tgt =>
    rw [execNext, microJz]
    split
    · exact .inr ⟨tgt, rfl⟩
    · exact .inl rfl
  | jnzH tgt =>
    rw [execNext, microJnz]
    split
    · exact .inl rfl
    · exact .inr ⟨tgt, rfl⟩
  | _ => exact .inl rfl

theorem State.Inv.execNext {s : State} (h : s.Inv) (i : Instr) : (execNext i s).Inv := by
  obtain ⟨_, hflags, _, ⟨hsegs, hlines, hlabels, _, _, hcurrent, hlast, _⟩, _, _⟩ := execNext_writesOnlyTable i s
  obtain ⟨htf, hif, hdf⟩ := inertFlags_not_written i
  obtain ⟨stf, sif, sdf⟩ := h.inertFlags
  exact {
    memory := execNext_mem_wf i h.memory
    segments := hsegs.trans h.segments
    inertFlags := ⟨(hflags .tf htf).trans stf, (hflags .if_ hif).trans sif, (hflags .df hdf).trans sdf⟩
    ipRange := fun hw => by
      rcases execNext_ip i s with hip | ⟨v, hip⟩ <;> rw [hip]
      · exact h.ipRange hw
      · exact ipw_lt_of_wrap v hw
    stored := hlines ▸ h.stored
    labelRange := by rw [hlabels, hlines]; exact h.labelRange
    labelNames := hlabels ▸ h.labelNames
    fetched := by rw [hcurrent, hlines]; exact h.fetched
    recorded := by rw [hlast, hlines]; exact h.recorded }

/-! ### The parts of a step -/

theorem State.Inv.haltStep {s : State} (h : s.Inv) : (haltStep s).Inv := { h with }

theorem State.Inv.recordStep {s : State} {line : Text} (h : s.Inv) (hl : line ∈ s.lines) : (recordStep s line).Inv :=
  { h with
    fetched := fun l hc => by cases hc; exact hl
    recorded := .inr ⟨line, hl, rfl⟩ }

theorem State.Inv.advanceIp {s : State} (h : s.Inv) : (advanceIp s).Inv := 
  { h with ipRange := fun hw => by rw [advanceIp_ip]; exact ipw_lt_of_wrap _ hw }

/-- After a fault each introspection field holds a value that met the invariant before the step or when it was recorded. -/
theorem State.Inv.settleFault {s : State} {line : Text} (h : s.Inv) (hl : line ∈ s.lines) :
    (settleFault s (Machine.recordStep s line)).Inv := by
  have hr := h.recordStep hl
  refine { hr with fetched := ?_, recorded := ?_ }
  · rcases settleFault_currentInstruction s (Machine.recordStep s line) with he | he <;> rw [he]
    · exact h.fetched
    · exact hr.fetched
  · rcases settleFault_lastMicroinstructions s (Machine.recordStep s line) with he | he <;> rw [he]
    · exact h.recorded
    · exact hr.recorded

/-! ### The step -/

/-- Settles O42: a step halts, or records its line, runs it and increments, or records its line and settles the fault, and each
of these keeps the invariant. -/
theorem stepKeepsInvariant : Obligations.StepKeepsInvariant := by
  intro s h
  rcases step_cases s with ⟨_, hs⟩ | ⟨line, hf, _, hs⟩ | ⟨line, src, hf, _, _, hs⟩ <;> rw [hs]
  · exact ⟨fun t ht => Host.Outcome.next.inj ht ▸ h.haltStep, fun t ht => by cases ht⟩
  · exact ⟨fun t ht => Host.Outcome.next.inj ht ▸ ((h.recordStep (fetchLine_mem hf)).execNext _).advanceIp,
      fun t ht => by cases ht⟩
  · exact ⟨fun t ht => (by cases ht), fun t ht => by cases ht; exact h.settleFault (fetchLine_mem hf)⟩

end Sys2Proof.Machine
end

section
/-! The program text (30_encoding.md R66 to R68): what each raw line adds to the program store. -/

namespace Sys2Proof.Machine

/-! ### Stored lines -/

theorem isStoredLine_iff (line : Text) :
    isStoredLine line = true ↔ line ≠ [] ∧ strip line = line ∧ lineFeed ∉ line := by
  simp [isStoredLine, and_assoc]

/-- A stripped text that is not empty and came from a text with no LF is a stored line. -/
theorem isStoredLine_strip {t : Text} (hne : strip t ≠ []) (hlf : lineFeed ∉ t) : isStoredLine (strip t) = true :=
  (isStoredLine_iff _).2 ⟨hne, strip_strip t, fun h => hlf (mem_of_mem_strip h)⟩

/-! ### Label tables -/

/-- A label table is a map into a program of `n` lines: each name stands once, and marks a line or the end. -/
def LabelsInto (n : Nat) (table : LabelTable) : Prop :=
  (∀ e ∈ table, e.2 ≤ n) ∧ (table.map Prod.fst).Nodup

theorem LabelsInto.mono {m n : Nat} {table : LabelTable} (h : LabelsInto m table) (hmn : m ≤ n) : LabelsInto n table :=
  ⟨fun e he => (h.1 e he).trans hmn, h.2⟩

/-- A declaration drops the older one of the same name, so the table stays a map. -/
theorem LabelsInto.declareLabel {n : Nat} {table : LabelTable} (h : LabelsInto n table) (name : Text) :
    LabelsInto n (declareLabel table name n) := by
  obtain ⟨hrange, hnodup⟩ := h
  constructor
  · intro e he
    rcases List.mem_append.1 he with he | he
    · exact hrange e (List.mem_of_mem_filter he)
    · rw [List.mem_singleton.1 he]
  · rw [Machine.declareLabel, List.map_append, List.nodup_append]
    refine ⟨hnodup.sublist (List.filter_sublist.map _), List.nodup_singleton _, ?_⟩
    intro a ha b hb
    obtain ⟨e, he, rfl⟩ := List.mem_map.1 ha
    rw [List.map_singleton, List.mem_singleton] at hb
    rw [hb]
    simpa using (List.mem_filter.1 he).2

/-! ### The parser -/

/-- What `parse` keeps of the program store (R67). -/
def ParsedStore (store : List Text × LabelTable) : Prop :=
  (∀ line ∈ store.1, isStoredLine line = true) ∧ LabelsInto store.1.length store.2

theorem ParsedStore.append {store : List Text × LabelTable} {line : Text} {labels : LabelTable}
    (h : ParsedStore store) (hline : isStoredLine line = true) (hlabels : LabelsInto store.1.length labels) :
    ParsedStore (store.1 ++ [line], labels) := by
  constructor
  · intro l hl
    rcases List.mem_append.1 hl with hl | hl
    · exact h.1 l hl
    · rw [List.mem_singleton.1 hl]
      exact hline
  · exact hlabels.mono (by simp)

/-- One raw line, which holds no LF, adds at most one stored line and one label, the label at the index of that line. -/
theorem ParsedStore.parseRaw {store : List Text × LabelTable} (h : ParsedStore store) {raw : Text}
    (hraw : lineFeed ∉ raw) : ParsedStore (parseRaw store raw) := by
  have hstrip : lineFeed ∉ strip raw := fun hm => hraw (mem_of_mem_strip hm)
  unfold Machine.parseRaw
  simp only
  split
  · exact h
  next hne =>
    split
    · have hlabels := h.2.declareLabel (strip ((strip raw).takeWhile (fun c => c != ':')))
      split
      · exact ⟨h.1, hlabels⟩
      next hrest =>
        have hlf : lineFeed ∉ ((strip raw).dropWhile (fun c => c != ':')).drop 1 :=
          fun hm => hstrip (mem_dropWhile (List.mem_of_mem_drop hm))
        exact h.append (isStoredLine_strip hrest hlf) hlabels
    · exact h.append (isStoredLine_strip hne hraw) h.2

theorem ParsedStore.foldl {raws : List Text} (hraws : ∀ raw ∈ raws, lineFeed ∉ raw) {store : List Text × LabelTable}
    (h : ParsedStore store) : ParsedStore (raws.foldl Machine.parseRaw store) := by
  induction raws generalizing store with
  | nil => exact h
  | cons raw raws ih =>
    exact ih (fun r hr => hraws r (List.mem_cons_of_mem _ hr)) (h.parseRaw (hraws raw List.mem_cons_self))

theorem parsedStore_parseProgram (code : Text) : ParsedStore (parseProgram code) :=
  ParsedStore.foldl (fun raw hraw => (mem_splitAt lineFeed code raw hraw).1)
    (store := ([], [])) ⟨nofun, nofun, List.nodup_nil⟩

/-- Settles O57: every raw line keeps `ParsedStore`, which the empty store meets. -/
theorem parseStoresStrippedLines : Obligations.ParseStoresStrippedLines := parsedStore_parseProgram

end Sys2Proof.Machine
end

section
/-! The machine invariant under the host operations (40_sequencer.md R91): `load` from what the parser keeps, `run` by the steps
of its loop. -/

namespace Sys2Proof.Machine

theorem inv_hostReset (s : State) : (hostReset s).Inv := { resetMeetsInvariant with }

theorem inv_hostLoad (code : Text) (s : State) : (hostLoad code s).Inv := by
  obtain ⟨hstored, hrange, hnames⟩ := parsedStore_parseProgram code
  exact { inv_hostReset s with
    stored := hstored, labelRange := hrange, labelNames := hnames, fetched := nofun, recorded := .inl rfl }

theorem State.Inv.hostStep {s : State} (h : s.Inv) : (hostStep s).2.Inv := by
  obtain ⟨hnext, hfault⟩ := stepKeepsInvariant s h
  unfold Machine.hostStep
  split
  next t ht => exact hnext t ht
  next t ht => exact hfault t ht
  next => exact h

theorem State.Inv.withRunning {s : State} (h : s.Inv) (b : Bool) : { s with running := b }.Inv := { h with }

theorem State.Inv.freeRunning {s : State} (h : s.Inv) : (freeRunning s).Inv := { h with }

theorem State.Inv.runLoop {fuel : Nat} {s t : State} {r : RunReply} (h : s.Inv) (hrun : runLoop fuel s = some (r, t)) :
    t.Inv := by
  induction fuel generalizing s with
  | zero => cases hrun
  | succ fuel ih =>
    have hstep := h.hostStep
    cases hr : s.running with
    | false =>
      rw [runLoop_succ_of_not_running fuel hr] at hrun
      cases hrun
      exact h.withRunning false
    | true =>
      rcases hostStep_cases s with ⟨_, _, _, hs⟩ | ⟨_, hs⟩ | ⟨_, _, _, _, _, _, hs⟩ <;> rw [hs] at hstep
      · rw [runLoop_succ_of_ok fuel hr hs] at hrun
        exact ih hstep hrun
      · rw [runLoop_succ_of_done fuel hr hs] at hrun
        cases hrun
        exact hstep.withRunning false
      · rw [runLoop_succ_of_fault fuel hr hs] at hrun
        cases hrun
        exact hstep.freeRunning

/-- Settles O43: `reset` and `load` bring about the invariant, `step` keeps it, and `run` keeps it in every round of its loop. -/
theorem hostOperationsKeepInvariant : Obligations.HostOperationsKeepInvariant := by
  intro op s t r h hop
  cases op with
  | reset =>
    cases hop
    exact inv_hostReset s
  | load code =>
    cases hop
    exact inv_hostLoad code s
  | step =>
    cases hop
    exact h.hostStep
  | run fuel =>
    obtain ⟨⟨reply, u⟩, hrun, hu⟩ := Option.map_eq_some_iff.1 hop
    cases hu
    exact (h.withRunning true).runLoop hrun
  | getState =>
    cases hop
    exact h

end Sys2Proof.Machine
end

section
/-! State that is not observed (10_state.md R28, R29, R36, R39, R43; 20_memory.md R56): a change of state that commutes with what
the instructions do, and with the parts of the sequencer, commutes with the step. -/

namespace Sys2Proof.Machine

/-! ### Instructions -/

/-- Only the divisor decides which way an instruction ends, so a change that keeps the registers commutes with the instruction
once it commutes with what the instruction leaves. -/
theorem exec_map {f : State → State} {i : Instr} {s : State} (hread : ∀ r, (f s).readGpr r = s.readGpr r)
    (hnext : execNext i (f s) = f (execNext i s)) : exec i (f s) = mapResult f (exec i s) := by
  rcases exec_cases i s with ⟨src, rfl, hz, he⟩ | ⟨hnz, he⟩ <;> rw [he]
  · exact microDiv_zero src (f s) ((hread src).trans hz)
  · rcases exec_cases i (f s) with ⟨src, hi, hz, _⟩ | ⟨_, he'⟩
    · exact absurd ((hread src).symm.trans hz) (hnz src hi)
    · rw [he', hnext, mapResult_next]

theorem dividend_congr {s t : State} (h : ∀ r, t.readGpr r = s.readGpr r) : t.dividend = s.dividend := by
  rw [State.dividend, State.dividend, h, h]

/-- DIV reads registers alone and writes AX and DX alone. -/
theorem execNext_divR_map {f : State → State} {s : State} (hread : ∀ r, (f s).readGpr r = s.readGpr r)
    (hwrite : ∀ v w, ((f s).writeGpr .ax v).writeGpr .dx w = f ((s.writeGpr .ax v).writeGpr .dx w)) (src : Gpr) :
    execNext (.divR src) (f s) = f (execNext (.divR src) s) := by
  simp only [execNext, dividend_congr hread, hread, hwrite]

theorem execNext_withInert (i : Instr) (s : State) (x : Inert) :
    execNext i (s.withInert x) = (execNext i s).withInert x := by
  cases i with
  | divR src => exact execNext_divR_map (f := fun t => t.withInert x) (fun _ => rfl) (fun _ _ => rfl) src
  | jzH tgt => simp only [execNext, microJz_eq_ip_update]; rfl
  | jnzH tgt => simp only [execNext, microJnz_eq_ip_update]; rfl
  | _ => rfl

theorem execNext_setRunning (i : Instr) (s : State) (b : Bool) :
    execNext i { s with running := b } = { execNext i s with running := b } := by
  cases i with
  | divR src => exact execNext_divR_map (f := fun t => { t with running := b }) (fun _ => rfl) (fun _ _ => rfl) src
  | jzH tgt => simp only [execNext, microJz_eq_ip_update]
  | jnzH tgt => simp only [execNext, microJnz_eq_ip_update]
  | _ => rfl

theorem execNext_setHalted (i : Instr) (s : State) (b : Bool) :
    execNext i { s with halted := b } = { execNext i s with halted := b } := by
  cases i with
  | divR src => exact execNext_divR_map (f := fun t => { t with halted := b }) (fun _ => rfl) (fun _ _ => rfl) src
  | jzH tgt => simp only [execNext, microJz_eq_ip_update]
  | jnzH tgt => simp only [execNext, microJnz_eq_ip_update]
  | _ => rfl

theorem withTemp_withTemp (s : State) (v w : Word) : (s.withTemp v).withTemp w = s.withTemp w := rfl

/-- TEMP is written before it is read, so what is left differs at most in TEMP. -/
theorem execNext_withTemp (i : Instr) (s : State) (v w : Word) :
    (execNext i (s.withTemp v)).withTemp w = (execNext i s).withTemp w := by
  cases i with
  | divR src =>
    have h : execNext (.divR src) (s.withTemp v) = (execNext (.divR src) s).withTemp v :=
      execNext_divR_map (f := fun t => t.withTemp v) (fun _ => rfl) (fun _ _ => rfl) src
    rw [h, withTemp_withTemp]
  | jzH tgt => simp only [execNext, microJz_eq_ip_update]; rfl
  | jnzH tgt => simp only [execNext, microJnz_eq_ip_update]; rfl
  | _ => rfl

theorem execNext_withMem {i : Instr} (s : State) (m : Memory) (hi : touchesMemory i = false) :
    execNext i (s.withMem m) = (execNext i s).withMem m := by
  cases i with
  | movRM d a => cases hi
  | movMR a src => cases hi
  | divR src => exact execNext_divR_map (f := fun t => t.withMem m) (fun _ => rfl) (fun _ _ => rfl) src
  | jzH tgt => simp only [execNext, microJz_eq_ip_update]; rfl
  | jnzH tgt => simp only [execNext, microJnz_eq_ip_update]; rfl
  | _ => rfl

/-! ### The end of a step -/

/-- A change that commutes with the increment and with the settling of a fault commutes with the end of a step. -/
theorem mapResult_finishStep {f : State → State} (hadvance : ∀ t, advanceIp (f t) = f (advanceIp t))
    (hsettle : ∀ s t, settleFault (f s) (f t) = f (settleFault s t)) (s : State) (r : Result) :
    mapResult f (finishStep s r) = finishStep (f s) (mapResult f r) := by
  match r with
  | .next t => simp only [finishStep, mapResult, hadvance]
  | .fault (.divideByZero t) => simp only [finishStep, mapResult, hsettle]
  | .refused _ => rfl

/-! ### State that steers no step -/

/-- `f` changes only what no step reads, and no step writes it. -/
structure Unread (f : State → State) : Prop where
  fetch : ∀ s, fetchLine (f s) = fetchLine s
  halt : ∀ s, haltStep (f s) = f (haltStep s)
  record : ∀ s line, recordStep (f s) line = f (recordStep s line)
  read : ∀ s r, (f s).readGpr r = s.readGpr r
  next : ∀ i s, execNext i (f s) = f (execNext i s)
  advance : ∀ s, advanceIp (f s) = f (advanceIp s)
  settle : ∀ s t, settleFault (f s) (f t) = f (settleFault s t)

theorem Unread.step {f : State → State} (h : Unread f) (s : State) : step (f s) = mapResult f (step s) := by
  cases hf : fetchLine s with
  | none => rw [step_of_fetch_none hf, step_of_fetch_none ((h.fetch s).trans hf), h.halt, mapResult_next]
  | some line =>
    rw [step_of_fetch_some hf, step_of_fetch_some ((h.fetch s).trans hf), mapResult_finishStep h.advance h.settle,
      h.record, exec_map (h.read _) (h.next _ _)]

theorem unread_withInert (x : Inert) : Unread (fun s => s.withInert x) where
  fetch _ := rfl
  halt _ := rfl
  record _ _ := rfl
  read _ _ := rfl
  next i s := execNext_withInert i s x
  advance _ := rfl
  settle _ _ := rfl

theorem unread_running (b : Bool) : Unread (fun s => { s with running := b }) where
  fetch _ := rfl
  halt _ := rfl
  record _ _ := rfl
  read _ _ := rfl
  next i s := execNext_setRunning i s b
  advance _ := rfl
  settle _ _ := rfl

/-- Settles O46: what `withInert` replaces is `Unread`. -/
theorem inertStateIsUnobservable : Obligations.InertStateIsUnobservable := fun s x => (unread_withInert x).step s

/-! ### TEMP -/

/-- An instruction's results from two values of TEMP differ at most in TEMP. -/
theorem mapResult_exec_withTemp (i : Instr) (s : State) (v w : Word) :
    mapResult (fun t => t.withTemp w) (exec i (s.withTemp v)) = mapResult (fun t => t.withTemp w) (exec i s) := by
  rcases exec_cases i s with ⟨src, rfl, hz, he⟩ | ⟨hnz, he⟩ <;> rw [he]
  · have he' : exec (.divR src) (s.withTemp v) = _ := microDiv_zero src (s.withTemp v) hz
    rw [he']
    rfl
  · rcases exec_cases i (s.withTemp v) with ⟨src, hi, hz, _⟩ | ⟨_, he'⟩
    · exact absurd hz (hnz src hi)
    · rw [he', mapResult_next, mapResult_next, execNext_withTemp]

theorem mapResult_step_withTemp (s : State) (v w : Word) :
    mapResult (fun t => t.withTemp w) (step (s.withTemp v)) = mapResult (fun t => t.withTemp w) (step s) := by
  cases hf : fetchLine s with
  | none => rw [step_of_fetch_none hf, step_of_fetch_none (s := s.withTemp v) hf]; rfl
  | some line =>
    have hrecord : recordStep (s.withTemp v) line = (recordStep s line).withTemp v := rfl
    have hfinish := mapResult_finishStep (f := fun t => t.withTemp w) (fun _ => rfl) (fun _ _ => rfl)
    rw [step_of_fetch_some hf, step_of_fetch_some (s := s.withTemp v) hf, hfinish, hfinish, hrecord,
      mapResult_exec_withTemp]
    rfl

/-- Settles O45: the fetch and the record do not look at TEMP, and an instruction that reads it has written it first; a snapshot
does not hold it. -/
theorem tempIsUnobservable : Obligations.TempIsUnobservable :=
  ⟨fun s v => mapResult_step_withTemp s v 0#16, fun _ _ => rfl⟩

/-! ### Data memory -/

/-- A load depends on its two bytes alone. -/
theorem readDirect_withMem {s : State} {m : Memory} {a : Nat} (h : ∀ x ∈ accessedBytes a, m.read x = s.mem.read x) :
    (s.withMem m).readDirect a = s.readDirect a := by
  have hlow := h (physAddr a) (by simp [accessedBytes])
  have hhigh := h (physAddr (a + 1)) (by simp [accessedBytes])
  rw [State.readDirect, State.readDirect, State.withMem_mem, memRead_two, memRead_two, hlow, hhigh]

theorem exec_movRM (d : Gpr) (a : Nat) (s : State) : exec (.movRM d a) s = .next (s.writeGpr d (s.readDirect a)) := rfl

theorem exec_movMR (a : Nat) (src : Gpr) (s : State) :
    exec (.movMR a src) s = .next (s.writeDirect a (s.readGpr src)) := rfl

/-- Settles O19: the other forms commute with a change of memory (`execNext_withMem`), a load reads its two bytes, and a store
has the frame `memKept_writeDirect`. -/
theorem onlyMovTouchesMemory : Obligations.OnlyMovTouchesMemory := by
  refine ⟨fun i s m hi => ?_, fun d a s m hm => ?_, fun a src s t h => ?_⟩
  · exact exec_map (f := fun t => t.withMem m) (fun _ => rfl) (execNext_withMem s m hi)
  · rw [exec_movRM, exec_movRM, readDirect_withMem hm]
    rfl
  · rw [exec_movMR] at h
    cases h
    exact memKept_writeDirect s a (s.readGpr src)

end Sys2Proof.Machine
end

section
/-! The decoder against the form table (30_encoding.md R75 to R79, R84): what `decode` answers, said once as one of three outcomes;
then the round trip with the encoder, and capitals. -/

namespace Sys2Proof.Machine

/-! ### The outcomes of a decoder -/

/-- `i` is what a line comes back as that fits a form (`fits`), is MALFORMED (`bad`), or is neither: the first two exclude one
another. -/
def DecodesTo (line : Text) (fits bad : Bool) (i : Instr) : Prop :=
  (fits = true ∧ bad = false ∧ i.isCore = true) ∨
    (fits = false ∧ i = .placeholder (if bad then .malformed else .unimpl) line)

theorem decodesTo_core {line : Text} {i : Instr} (h : i.isCore = true) : DecodesTo line true false i :=
  .inl ⟨rfl, rfl, h⟩

theorem decodesTo_unimpl (line : Text) : DecodesTo line false false (asUnimpl line) := .inr ⟨rfl, rfl⟩

theorem decodesTo_malformed (line : Text) : DecodesTo line false true (asMalformed line) := .inr ⟨rfl, rfl⟩

/-! ### One lemma for each part of the decoder -/

theorem decodesTo_decodeUnary (line : Text) {form : Gpr → Instr} (hform : ∀ r, (form r).isCore = true) (o : Text) :
    DecodesTo line (isReg o) false (decodeUnary line form o) := by
  unfold isReg decodeUnary
  cases regOperand o with
  | none => exact decodesTo_unimpl line
  | some r => exact decodesTo_core (hform r)

theorem decodesTo_decodeJump (line : Text) {form : Nat → Instr} (hform : ∀ t, (form t).isCore = true) (o : Text) :
    DecodesTo line (isHex o) (!isHex o) (decodeJump line form o) := by
  unfold isHex decodeJump
  cases hexOperand o with
  | none => exact decodesTo_malformed line
  | some t => exact decodesTo_core (hform t)

theorem decodesTo_decodeCmp (line p q : Text) :
    DecodesTo line (isReg p && isReg q) false (decodeCmp line p q) := by
  unfold isReg decodeCmp
  cases regOperand p with
  | none => exact decodesTo_unimpl line
  | some a =>
    cases regOperand q with
    | none => exact decodesTo_unimpl line
    | some b => exact decodesTo_core rfl

theorem decodesTo_decodeArith (line : Text) {regForm : Gpr → Gpr → Instr} {immForm : Gpr → Nat → Instr}
    (hreg : ∀ d s, (regForm d s).isCore = true) (himm : ∀ d n, (immForm d n).isCore = true) (d s : Text) :
    DecodesTo line (isReg d && (isReg s || isDec s)) false (decodeArith line regForm immForm d s) := by
  unfold isReg isDec decodeArith
  cases regOperand d with
  | none => exact decodesTo_unimpl line
  | some dst =>
    cases regOperand s with
    | some src => exact decodesTo_core (hreg dst src)
    | none =>
      cases decOperand s with
      | none => exact decodesTo_unimpl line
      | some n => exact decodesTo_core (himm dst n)

/-- MOV from a register: a register is no bracketed operand, so the destination settles the outcome. -/
theorem decodesTo_decodeMovFromReg (line d : Text) (src : Gpr) :
    DecodesTo line (isReg d || isMem d) (isBadMem d) (decodeMovFromReg line d src) := by
  unfold isReg isBadMem isMem decodeMovFromReg
  cases hd : regOperand d with
  | some dst =>
    rw [bracketInner_of_reg hd]
    exact decodesTo_core rfl
  | none =>
    cases bracketInner d with
    | none => exact decodesTo_unimpl line
    | some inner =>
      simp only [Option.bind_some]
      cases hexOperand inner with
      | none => exact decodesTo_malformed line
      | some a => exact decodesTo_core rfl

theorem decodesTo_decodeMovFromMem (line d : Text) {s inner : Text} (hs : bracketInner s = some inner) :
    DecodesTo line (isReg d && isMem s) (isReg d && isBadMem s) (decodeMovFromMem line d inner) := by
  unfold isReg isBadMem isMem decodeMovFromMem
  simp only [hs, Option.bind_some]
  cases regOperand d with
  | none => exact decodesTo_unimpl line
  | some dst =>
    cases hexOperand inner with
    | none => exact decodesTo_malformed line
    | some a => exact decodesTo_core rfl

theorem isMem_of_bracketInner_none {o : Text} (h : bracketInner o = none) : isMem o = false := by
  simp [isMem, h]

theorem isBadMem_of_bracketInner_none {o : Text} (h : bracketInner o = none) : isBadMem o = false := by
  simp [isBadMem, h]

/-- The classes of MOV's source exclude one another, so the order in which R76 tries them settles nothing. -/
theorem decodesTo_decodeMov (line d s : Text) :
    DecodesTo line ((isReg d && isDec s) || (isReg d && isReg s) || (isReg d && isMem s) || (isMem d && isReg s))
      ((isReg d && isBadMem s) || (isBadMem d && isReg s)) (decodeMov line d s) := by
  unfold decodeMov
  cases hdec : decOperand s with
  | some n =>
    obtain ⟨hreg, hbracket⟩ := not_reg_not_bracket_of_dec hdec
    have hs : isDec s = true ∧ isReg s = false := by simp [isDec, isReg, hdec, hreg]
    have hd : isReg d = (regOperand d).isSome := rfl
    simp only [hs, hd, isMem_of_bracketInner_none hbracket, isBadMem_of_bracketInner_none hbracket, Bool.and_true,
      Bool.and_false, Bool.or_false]
    cases regOperand d with
    | none => exact decodesTo_unimpl line
    | some dst => exact decodesTo_core rfl
  | none =>
    have hs : isDec s = false := by simp [isDec, hdec]
    cases hreg : regOperand s with
    | some src =>
      have hbracket := bracketInner_of_reg hreg
      have hs' : isReg s = true := by simp [isReg, hreg]
      simpa [hs, hs', isMem_of_bracketInner_none hbracket, isBadMem_of_bracketInner_none hbracket] using
        decodesTo_decodeMovFromReg line d src
    | none =>
      have hs' : isReg s = false := by simp [isReg, hreg]
      cases hbracket : bracketInner s with
      | none =>
        simpa [hs, hs', isMem_of_bracketInner_none hbracket, isBadMem_of_bracketInner_none hbracket] using
          decodesTo_unimpl line
      | some inner => simpa [hs, hs'] using decodesTo_decodeMovFromMem line d hbracket

/-! ### The dispatch -/

theorem decodesTo_decodeTwo (line mn o1 o2 : Text) :
    DecodesTo line
      ((mn == mnMOV && ((isReg o1 && isDec o2) || (isReg o1 && isReg o2) || (isReg o1 && isMem o2) || (isMem o1 && isReg o2)))
        || (mn == mnADD && isReg o1 && (isReg o2 || isDec o2))
        || (mn == mnSUB && isReg o1 && (isReg o2 || isDec o2))
        || (mn == mnCMP && isReg o1 && isReg o2))
      (mn == mnMOV && ((isReg o1 && isBadMem o2) || (isBadMem o1 && isReg o2))) (decodeTwo line mn o1 o2) := by
  unfold decodeTwo
  split
  next h => subst h; simpa [mnMOV, mnADD, mnSUB, mnCMP] using decodesTo_decodeMov line o1 o2
  next hmov =>
    split
    next h =>
      subst h
      simpa [mnMOV, mnADD, mnSUB, mnCMP] using
        decodesTo_decodeArith line (regForm := .addRR) (immForm := .addRI) (fun _ _ => rfl) (fun _ _ => rfl) o1 o2
    next hadd =>
      split
      next h =>
        subst h
        simpa [mnMOV, mnADD, mnSUB, mnCMP] using
          decodesTo_decodeArith line (regForm := .subRR) (immForm := .subRI) (fun _ _ => rfl) (fun _ _ => rfl) o1 o2
      next hsub =>
        split
        next h => subst h; simpa [mnMOV, mnADD, mnSUB, mnCMP] using decodesTo_decodeCmp line o1 o2
        next hcmp =>
          simpa [beq_false_of_ne hmov, beq_false_of_ne hadd, beq_false_of_ne hsub, beq_false_of_ne hcmp] using decodesTo_unimpl line

theorem decodesTo_decodeOne (line mn o : Text) :
    DecodesTo line (((mn == mnMUL || mn == mnDIV) && isReg o) || ((mn == mnJMP || mn == mnJZ || mn == mnJNZ) && isHex o))
      ((mn == mnJMP || mn == mnJZ || mn == mnJNZ) && !isHex o) (decodeOne line mn o) := by
  unfold decodeOne
  split
  next h =>
    subst h
    simpa [mnMUL, mnDIV, mnJMP, mnJZ, mnJNZ] using decodesTo_decodeUnary line (form := .mulR) (fun _ => rfl) o
  next hmul =>
    split
    next h =>
      subst h
      simpa [mnMUL, mnDIV, mnJMP, mnJZ, mnJNZ] using decodesTo_decodeUnary line (form := .divR) (fun _ => rfl) o
    next hdiv =>
      split
      next h =>
        subst h
        simpa [mnMUL, mnDIV, mnJMP, mnJZ, mnJNZ] using decodesTo_decodeJump line (form := .jmpH) (fun _ => rfl) o
      next hjmp =>
        split
        next h =>
          subst h
          simpa [mnMUL, mnDIV, mnJMP, mnJZ, mnJNZ] using decodesTo_decodeJump line (form := .jzH) (fun _ => rfl) o
        next hjz =>
          split
          next h =>
            subst h
            simpa [mnMUL, mnDIV, mnJMP, mnJZ, mnJNZ] using decodesTo_decodeJump line (form := .jnzH) (fun _ => rfl) o
          next hjnz =>
            simpa [beq_false_of_ne hmul, beq_false_of_ne hdiv, beq_false_of_ne hjmp, beq_false_of_ne hjz,
              beq_false_of_ne hjnz] using decodesTo_unimpl line

/-- `decode` answers as the form table and R79 say. -/
theorem decodesTo_decode (line : Text) : DecodesTo line (fitsForm line) (fitsMalformed line) (decode line) := by
  unfold fitsForm fitsMalformed decode
  obtain ⟨mn, ops⟩ := tokenize line
  match ops with
  | [o1, o2] => exact decodesTo_decodeTwo line mn o1 o2
  | [o] => exact decodesTo_decodeOne line mn o
  | [] => exact decodesTo_unimpl line
  | _ :: _ :: _ :: _ => exact decodesTo_unimpl line

/-- Settles O55: the three outcomes of `decodesTo_decode`, read from left and from right. -/
theorem decodeFollowsFormTable : Obligations.DecodeFollowsFormTable := by
  intro line
  rcases decodesTo_decode line with ⟨hfits, hbad, hcore⟩ | ⟨hfits, hi⟩
  · have hne : ∀ kind, decode line ≠ .placeholder kind line := fun kind h => by simp [h, Instr.isCore] at hcore
    simp [hfits, hbad, hcore, hne]
  · cases hbad : fitsMalformed line <;> simp [hfits, hi, hbad, Instr.isCore]

/-! ### The round trip -/

theorem decode_lineOne {m o : Text} (hm : m ∈ mnemonics) (ho : Plain o) :
    decode (lineOne m o) = decodeOne (lineOne m o) m o := by
  rw [decode, tokenize_lineOne hm ho]

theorem decode_lineTwo {m o1 o2 : Text} (hm : m ∈ mnemonics) (h1 : Plain o1) (h2 : Plain o2) :
    decode (lineTwo m o1 o2) = decodeTwo (lineTwo m o1 o2) m o1 o2 := by
  rw [decode, tokenize_lineTwo hm h1 h2]

@[simp] theorem decodeTwo_mnMOV (line o1 o2 : Text) : decodeTwo line mnMOV o1 o2 = decodeMov line o1 o2 := rfl
@[simp] theorem decodeTwo_mnADD (line o1 o2 : Text) :
    decodeTwo line mnADD o1 o2 = decodeArith line .addRR .addRI o1 o2 := rfl
@[simp] theorem decodeTwo_mnSUB (line o1 o2 : Text) :
    decodeTwo line mnSUB o1 o2 = decodeArith line .subRR .subRI o1 o2 := rfl
@[simp] theorem decodeTwo_mnCMP (line o1 o2 : Text) : decodeTwo line mnCMP o1 o2 = decodeCmp line o1 o2 := rfl
@[simp] theorem decodeOne_mnMUL (line o : Text) : decodeOne line mnMUL o = decodeUnary line .mulR o := rfl
@[simp] theorem decodeOne_mnDIV (line o : Text) : decodeOne line mnDIV o = decodeUnary line .divR o := rfl
@[simp] theorem decodeOne_mnJMP (line o : Text) : decodeOne line mnJMP o = decodeJump line .jmpH o := rfl
@[simp] theorem decodeOne_mnJZ (line o : Text) : decodeOne line mnJZ o = decodeJump line .jzH o := rfl
@[simp] theorem decodeOne_mnJNZ (line o : Text) : decodeOne line mnJNZ o = decodeJump line .jnzH o := rfl

/-- Settles O53: a form tokenizes to its mnemonic and its operands, each of which reads back; a placeholder's line fits no form
and has the kind that R79 gives it. -/
theorem decodeEncodeRoundTrip : Obligations.DecodeEncodeRoundTrip := by
  intro i h
  cases i with
  | movRI d n | addRI d n | subRI d n =>
    rw [encode, decode_lineTwo (by simp [mnemonics]) (plain_gprName d) (plain_decText n)]
    simp [decodeMov, decodeArith]
  | movRR d s | addRR d s | subRR d s | cmpRR d s =>
    rw [encode, decode_lineTwo (by simp [mnemonics]) (plain_gprName d) (plain_gprName s)]
    simp [decodeMov, decodeMovFromReg, decodeArith, decodeCmp]
  | movRM d a =>
    rw [encode, decode_lineTwo (by simp [mnemonics]) (plain_gprName d) (plain_memText a)]
    simp [decodeMov, decodeMovFromMem]
  | movMR a s =>
    rw [encode, decode_lineTwo (by simp [mnemonics]) (plain_memText a) (plain_gprName s)]
    simp [decodeMov, decodeMovFromReg]
  | mulR s | divR s =>
    rw [encode, decode_lineOne (by simp [mnemonics]) (plain_gprName s)]
    simp [decodeUnary]
  | jmpH t | jzH t | jnzH t =>
    rw [encode, decode_lineOne (by simp [mnemonics]) (plain_hexText t)]
    simp [decodeJump]
  | placeholder kind line =>
    simp only [Instr.wellFormed, Bool.and_eq_true, Bool.not_eq_true', beq_iff_eq] at h
    obtain ⟨⟨_, hfits⟩, hkind⟩ := h
    rcases decodesTo_decode line with ⟨hfits', _⟩ | ⟨_, hi⟩
    · simp [hfits] at hfits'
    · rw [encode, hi, hkind, placeholderKind]

/-! ### Capitals -/

/-- `i` with another line in it, where it is a placeholder. -/
def onLine (line : Text) : Instr → Instr
  | .placeholder kind _ => .placeholder kind line
  | i => i

theorem onLine_of_isCore (line : Text) {i : Instr} (h : i.isCore = true) : onLine line i = i := by
  cases i with
  | placeholder => cases h
  | _ => rfl

theorem decodeUnary_upper (line line' : Text) {form : Gpr → Instr} (hform : ∀ r, (form r).isCore = true) (o : Text) :
    decodeUnary line' form (upper o) = onLine line' (decodeUnary line form o) := by
  unfold decodeUnary
  rw [regOperand_upper]
  cases regOperand o with
  | none => rfl
  | some r => exact (onLine_of_isCore line' (hform r)).symm

theorem decodeJump_upper (line line' : Text) {form : Nat → Instr} (hform : ∀ t, (form t).isCore = true) (o : Text) :
    decodeJump line' form (upper o) = onLine line' (decodeJump line form o) := by
  unfold decodeJump
  rw [hexOperand_upper]
  cases hexOperand o with
  | none => rfl
  | some t => exact (onLine_of_isCore line' (hform t)).symm

theorem decodeCmp_upper (line line' p q : Text) :
    decodeCmp line' (upper p) (upper q) = onLine line' (decodeCmp line p q) := by
  unfold decodeCmp
  rw [regOperand_upper, regOperand_upper]
  cases regOperand p with
  | none => rfl
  | some a => cases regOperand q <;> rfl

theorem decodeArith_upper (line line' : Text) {regForm : Gpr → Gpr → Instr} {immForm : Gpr → Nat → Instr}
    (hreg : ∀ d s, (regForm d s).isCore = true) (himm : ∀ d n, (immForm d n).isCore = true) (d s : Text) :
    decodeArith line' regForm immForm (upper d) (upper s) = onLine line' (decodeArith line regForm immForm d s) := by
  unfold decodeArith
  rw [regOperand_upper, regOperand_upper, decOperand_upper]
  cases regOperand d with
  | none => rfl
  | some dst =>
    cases regOperand s with
    | some src => exact (onLine_of_isCore line' (hreg dst src)).symm
    | none =>
      cases decOperand s with
      | none => rfl
      | some n => exact (onLine_of_isCore line' (himm dst n)).symm

theorem decodeMovFromReg_upper (line line' d : Text) (src : Gpr) :
    decodeMovFromReg line' (upper d) src = onLine line' (decodeMovFromReg line d src) := by
  unfold decodeMovFromReg
  rw [regOperand_upper, bracketInner_upper]
  cases regOperand d with
  | some dst => rfl
  | none =>
    cases bracketInner d with
    | none => rfl
    | some inner =>
      simp only [Option.map_some, hexOperand_upper]
      cases hexOperand inner <;> rfl

theorem decodeMovFromMem_upper (line line' d inner : Text) :
    decodeMovFromMem line' (upper d) (upper inner) = onLine line' (decodeMovFromMem line d inner) := by
  unfold decodeMovFromMem
  rw [regOperand_upper, hexOperand_upper]
  cases regOperand d with
  | none => rfl
  | some dst => cases hexOperand inner <;> rfl

theorem decodeMov_upper (line line' d s : Text) :
    decodeMov line' (upper d) (upper s) = onLine line' (decodeMov line d s) := by
  unfold decodeMov
  rw [decOperand_upper, regOperand_upper, regOperand_upper, bracketInner_upper]
  cases decOperand s with
  | some n => cases regOperand d <;> rfl
  | none =>
    cases regOperand s with
    | some src => exact decodeMovFromReg_upper line line' d src
    | none =>
      cases bracketInner s with
      | none => rfl
      | some inner => exact decodeMovFromMem_upper line line' d inner

theorem decodeTwo_upper (line line' mn o1 o2 : Text) :
    decodeTwo line' mn (upper o1) (upper o2) = onLine line' (decodeTwo line mn o1 o2) := by
  unfold decodeTwo
  split_ifs
  · exact decodeMov_upper line line' o1 o2
  · exact decodeArith_upper line line' (fun _ _ => rfl) (fun _ _ => rfl) o1 o2
  · exact decodeArith_upper line line' (fun _ _ => rfl) (fun _ _ => rfl) o1 o2
  · exact decodeCmp_upper line line' o1 o2
  · rfl

theorem decodeOne_upper (line line' mn o : Text) :
    decodeOne line' mn (upper o) = onLine line' (decodeOne line mn o) := by
  unfold decodeOne
  split_ifs
  · exact decodeUnary_upper line line' (fun _ => rfl) o
  · exact decodeUnary_upper line line' (fun _ => rfl) o
  · exact decodeJump_upper line line' (fun _ => rfl) o
  · exact decodeJump_upper line line' (fun _ => rfl) o
  · exact decodeJump_upper line line' (fun _ => rfl) o
  · rfl

/-- A line in capitals decodes to the same instruction, but for the line a placeholder keeps. -/
theorem decode_upper (line : Text) : decode (upper line) = onLine (upper line) (decode line) := by
  unfold decode
  rw [tokenize_upper]
  obtain ⟨mn, ops⟩ := tokenize line
  match ops with
  | [o] => exact decodeOne_upper line (upper line) mn o
  | [o1, o2] => exact decodeTwo_upper line (upper line) mn o1 o2
  | [] => rfl
  | _ :: _ :: _ :: _ => rfl

/-- Settles O56: a line that fits a form decodes to no placeholder, so `decode_upper` changes nothing. -/
theorem decodeIgnoresCase : Obligations.DecodeIgnoresCase := by
  intro line h
  have hcore : (decode line).isCore = true := (decodeFollowsFormTable line).1.2 h
  rw [decode_upper, onLine_of_isCore _ hcore]

end Sys2Proof.Machine
end

section
/-! The lines the encoder spells (30_encoding.md R66, R84): the program store can hold them, so their words decode, and a text
written from them loads to them. -/

namespace Sys2Proof.Machine

/-! ### A spelled form is a stored line -/

/-- Every character of a spelled form is plain, or the space or the comma between its tokens. -/
theorem mem_encode {i : Instr} (h : i.isCore = true) {c : Char} (hc : c ∈ encode i) :
    c ≠ ':' ∧ c ≠ lineFeed ∧ c.toNat < 128 := by
  have hplain {o : Text} (ho : Plain o) (hco : c ∈ o) : c ≠ ':' ∧ c ≠ lineFeed ∧ c.toNat < 128 :=
    let ⟨_, _, hcolon, hlf, hascii⟩ := ho.2 c hco
    ⟨hcolon, hlf, hascii⟩
  rcases encode_shape i h with ⟨m, o, hm, ho, he⟩ | ⟨m, o1, o2, hm, h1, h2, he⟩ <;> rw [he] at hc
  · simp only [lineOne, List.mem_append, List.mem_cons] at hc
    rcases hc with hc | rfl | hc
    · exact hplain (plain_mnemonic m hm).1 hc
    · decide
    · exact hplain ho hc
  · simp only [lineTwo, List.mem_append, List.mem_cons] at hc
    rcases hc with hc | rfl | hc | rfl | rfl | hc
    · exact hplain (plain_mnemonic m hm).1 hc
    · decide
    · exact hplain h1 hc
    · decide
    · decide
    · exact hplain h2 hc

/-- A text that begins and ends with a plain token is stripped. -/
theorem strip_between {a b : Text} (ha : Plain a) (hb : Plain b) (mid : Text) : strip (a ++ mid ++ b) = a ++ mid ++ b := by
  apply strip_eq_self
  · intro c hc
    obtain ⟨x, xs, rfl⟩ := List.exists_cons_of_ne_nil ha.1
    obtain rfl : x = c := by simpa using hc
    exact (ha.2 x List.mem_cons_self).1
  · intro c hc
    obtain ⟨y, hy⟩ := Option.ne_none_iff_exists'.1 (mt List.getLast?_eq_none_iff.1 hb.1)
    rw [List.getLast?_append, hy] at hc
    obtain rfl : y = c := by simpa using hc
    exact (hb.2 y (List.mem_of_getLast? hy)).1

theorem encode_ne_nil_strip {i : Instr} (h : i.isCore = true) : encode i ≠ [] ∧ strip (encode i) = encode i := by
  rcases encode_shape i h with ⟨m, o, hm, ho, he⟩ | ⟨m, o1, o2, hm, h1, h2, he⟩ <;> rw [he]
  · have hs := strip_between (plain_mnemonic m hm).1 ho [' ']
    simp only [List.append_assoc, List.singleton_append] at hs
    exact ⟨by simp [lineOne], hs⟩
  · have hs := strip_between (plain_mnemonic m hm).1 h2 (' ' :: (o1 ++ [',', ' ']))
    simp only [List.append_assoc, List.cons_append, List.nil_append] at hs
    exact ⟨by simp [lineTwo], hs⟩

theorem isStoredLine_encode {i : Instr} (h : i.isCore = true) : isStoredLine (encode i) = true :=
  (isStoredLine_iff _).2 ⟨(encode_ne_nil_strip h).1, (encode_ne_nil_strip h).2, fun hm => (mem_encode h hm).2.1 rfl⟩

/-! ### Words -/

theorem wellFormed_of_isCore {i : Instr} (h : i.isCore = true) : i.wellFormed = true := by
  cases i with
  | placeholder => cases h
  | _ => rfl

theorem isStoredLine_encode_of_wellFormed {i : Instr} (h : i.wellFormed = true) : isStoredLine (encode i) = true := by
  cases i with
  | placeholder kind line =>
    simp only [Instr.wellFormed, Bool.and_eq_true] at h
    exact h.1.1
  | _ => exact isStoredLine_encode rfl

/-- Settles O54: the word gives back the text (`textOfWord_wordOfText`), which is a stored line, and the text decodes. -/
theorem tableWordRoundTrip : Obligations.TableWordRoundTrip := by
  refine ⟨fun i h hascii => ?_, fun i h c hc => (mem_encode h hc).2.2.trans (by decide)⟩
  have hlen : encodedBits i / 8 = (encode i).length := Nat.mul_div_cancel_left _ (by decide)
  have htext : textOfWord (encodedBits i / 8) (encodedWord i) = encode i := by
    rw [hlen, encodedWord, textOfWord_wordOfText _ hascii]
  rw [decodeTableWord, htext]
  simp only [isStoredLine_encode_of_wellFormed h, if_true, decodeEncodeRoundTrip i h]

/-- Settles O59: each word is evaluated. -/
theorem spelledWordsDecode : Obligations.SpelledWordsDecode :=
  ⟨by decide, by decide, by decide, by decide, by decide, by decide⟩

/-! ### Program texts -/

/-- A spelled form takes a slot of the program store and declares no label. -/
theorem parseRaw_encode {i : Instr} (h : i.isCore = true) (store : List Text × LabelTable) :
    parseRaw store (encode i) = (store.1 ++ [encode i], store.2) := by
  obtain ⟨hne, hstrip⟩ := encode_ne_nil_strip h
  have hcolon : ':' ∉ encode i := fun hm => (mem_encode h hm).1 rfl
  unfold parseRaw
  simp [hstrip, hne, hcolon]

theorem foldl_parseRaw_programText {is : List Instr} (h : ∀ i ∈ is, i.isCore = true) (store : List Text × LabelTable) :
    (splitAt lineFeed (programText is)).foldl parseRaw store = (store.1 ++ is.map encode, store.2) := by
  induction is generalizing store with
  | nil => simp [programText, splitAt, parseRaw, strip]
  | cons i is ih =>
    have hi := h i List.mem_cons_self
    have hlf : lineFeed ∉ encode i := fun hm => (mem_encode hi hm).2.1 rfl
    rw [programText, splitAt_append _ _ _ hlf, List.foldl_cons, parseRaw_encode hi,
      ih fun j hj => h j (List.mem_cons_of_mem _ hj)]
    simp

theorem parseProgram_programText {is : List Instr} (h : ∀ i ∈ is, i.isCore = true) :
    parseProgram (programText is) = (is.map encode, []) :=
  foldl_parseRaw_programText h ([], [])

/-- Settles O58: the text parses to the encodings, each of which decodes to its instruction. -/
theorem programTextLoadsItsInstructions : Obligations.ProgramTextLoadsItsInstructions := by
  intro is s h
  simp only [hostLoad, parseProgram_programText h, List.map_map, and_true]
  have hround : is.map (decode ∘ encode) = is.map id :=
    List.map_congr_left fun i hi => decodeEncodeRoundTrip i (wellFormed_of_isCore (h i hi))
  rw [hround, List.map_id]

end Sys2Proof.Machine
end

section
/-! Data memory (20_memory.md R51 to R54): a 16-bit write reads back, its two bytes are little-endian, and a read of any width is
a little-endian sum. -/

namespace Sys2Proof.Machine

/-- Settles O6: the two bytes and the frame of a 16-bit write; `physAddr` is the reduction mod 2^20. -/
theorem memWriteIsLittleEndian : Obligations.MemWriteIsLittleEndian := by
  intro m addr v hm
  have hlow := congrArg BitVec.toNat (read_memWrite_two_low m addr v hm)
  have hhigh := congrArg BitVec.toNat (read_memWrite_two_high m addr v hm)
  rw [BitVec.toNat_ofNat] at hlow hhigh
  exact ⟨wf_memWrite m addr 2 v hm, hlow, hhigh, fun a h h' => read_memWrite_two_other m addr v a h h'⟩

theorem memRead_two_memWrite_two {m : Memory} (hm : m.wf = true) (addr v : Nat) :
    memRead (memWrite m addr 2 v) addr 2 = v % 65536 := by
  obtain ⟨_, hlow, hhigh, _⟩ := memWriteIsLittleEndian m addr v hm
  rw [memRead_two, physAddr, physAddr, hlow, hhigh]
  omega

/-- Masking an address once more changes nothing, for this byte and for the next. -/
theorem physAddr_mod_add (addr k : Nat) : physAddr (addr % 1048576 + k) = physAddr (addr + k) :=
  Nat.mod_add_mod addr 1048576 k

/-- Settles O5: the two bytes written are the two bytes read, and both addresses are masked. -/
theorem memoryRoundTrip : Obligations.MemoryRoundTrip := by
  refine ⟨fun m addr v hm => memRead_two_memWrite_two hm addr v, fun m addr => ?_⟩
  have hmask : physAddr (addr % 1048576) = physAddr addr := physAddr_mod_add addr 0
  rw [memRead_two, memRead_two, hmask, physAddr_mod_add]

theorem memRead_eq_sum (m : Memory) (addr n : Nat) :
    memRead m addr n = ((List.range n).map (fun i => (m.read ((addr + i) % 1048576)).toNat * 256 ^ i)).sum := by
  induction n generalizing addr with
  | zero => rfl
  | succ n ih =>
    have hshift : (fun i => (m.read ((addr + i) % 1048576)).toNat * 256 ^ i) ∘ Nat.succ =
        fun i => 256 * ((m.read ((addr + 1 + i) % 1048576)).toNat * 256 ^ i) := by
      funext i
      have haddr : addr + i.succ = addr + 1 + i := by omega
      rw [Function.comp_apply, haddr, pow_succ]
      ring
    rw [memRead, ih, List.range_succ_eq_map, List.map_cons, List.map_map, hshift, List.sum_cons, List.sum_map_mul_left,
      pow_zero, Nat.mul_one]
    rfl

theorem memRead_lt (m : Memory) (addr n : Nat) : memRead m addr n < 2 ^ (8 * n) := by
  induction n generalizing addr with
  | zero => exact Nat.one_pos
  | succ n ih =>
    have hbyte := (m.read (physAddr addr)).isLt
    have hrest := ih (addr + 1)
    have hpow : 2 ^ (8 * (n + 1)) = 256 * 2 ^ (8 * n) := by
      rw [Nat.mul_succ, pow_add]
      omega
    rw [memRead, hpow]
    omega

/-- Settles O7: both parts by induction on the width. -/
theorem memReadIsLittleEndianSum : Obligations.MemReadIsLittleEndianSum := fun m addr n =>
  ⟨memRead_eq_sum m addr n, memRead_lt m addr n⟩

end Sys2Proof.Machine
end

section
/-! Registers, reset and the snapshot (00_scope.md R10, 10_state.md R24, R25, R48, 40_sequencer.md R103). -/

namespace Sys2Proof.Machine

/-! ### Registers -/

/-- `ipw` tests for a small value first, which is the same under both settings. -/
theorem ipw_eq (v : Nat) : ipw v = if Config.ipWrap16 then v % 65536 else v := by
  unfold ipw
  split
  next h => rw [Nat.mod_eq_of_lt h, ite_self]
  next => rfl

/-- Settles O10: `ipw_eq`. -/
theorem ipWriteFollowsParameter : Obligations.IpWriteFollowsParameter := ipw_eq

/-- A register holds what was written, reduced as its width asks. -/
theorem readReg_writeReg_same (s : State) (r : RegId) (v : Nat) :
    (s.writeReg r v).readReg r = if r = .ip ∧ Config.ipWrap16 = false then v else v % 65536 := by
  cases r with
  | gpr r =>
    have h : (s.writeReg (.gpr r) v).readReg (.gpr r) = (BitVec.ofNat 16 v).toNat :=
      congrArg BitVec.toNat (readGpr_writeGpr_same ..)
    rw [h, if_neg (by simp), BitVec.toNat_ofNat]
  | seg r =>
    have h : (s.writeReg (.seg r) v).readReg (.seg r) = (BitVec.ofNat 16 v).toNat :=
      congrArg BitVec.toNat (SegFile.get_set_same ..)
    rw [h, if_neg (by simp), BitVec.toNat_ofNat]
  | temp => exact (BitVec.toNat_ofNat v 16).trans (if_neg (by simp)).symm
  | ip =>
    have h : (s.writeReg .ip v).readReg .ip = ipw v := rfl
    rw [h, ipw_eq]
    cases Config.ipWrap16 <;> simp

/-- The register files are apart, and within a file the other registers are as before. -/
theorem readReg_writeReg_other (s : State) {r r' : RegId} (v : Nat) (h : r' ≠ r) :
    (s.writeReg r v).readReg r' = s.readReg r' := by
  cases r with
  | gpr g =>
    cases r' with
    | gpr g' => exact congrArg BitVec.toNat (readGpr_writeGpr_other s g g' _ fun e => h (congrArg RegId.gpr e))
    | _ => rfl
  | seg g =>
    cases r' with
    | seg g' => exact congrArg BitVec.toNat (SegFile.get_set_other s.segs g g' _ fun e => h (congrArg RegId.seg e))
    | _ => rfl
  | ip =>
    cases r' with
    | ip => exact absurd rfl h
    | _ => rfl
  | temp =>
    cases r' with
    | temp => exact absurd rfl h
    | _ => rfl

/-- Settles O8: read after write for the same register and for another, and the fields no register write touches. -/
theorem registerWriteTruncates : Obligations.RegisterWriteTruncates := by
  intro s r v
  refine ⟨readReg_writeReg_same s r v, fun r' h => readReg_writeReg_other s v h, ?_⟩
  cases r <;> exact ⟨rfl, rfl, rfl, rfl, rfl, rfl, rfl, rfl, rfl⟩

theorem toNat_highByte (w : Word) : (w.extractLsb' 8 8).toNat = w.toNat / 256 := by
  have h := w.isLt
  rw [BitVec.extractLsb'_toNat, Nat.shiftRight_eq_div_pow]
  omega

theorem toNat_lowByte (w : Word) : (w.extractLsb' 0 8).toNat = w.toNat % 256 := by
  rw [BitVec.extractLsb'_toNat, Nat.shiftRight_zero]

/-- Settles O9: each view is the high or the low byte of a register. -/
theorem viewsAreRegisterHalves : Obligations.ViewsAreRegisterHalves := fun _ =>
  ⟨toNat_highByte _, toNat_lowByte _, toNat_highByte _, toNat_lowByte _, toNat_highByte _, toNat_lowByte _,
    toNat_highByte _, toNat_lowByte _⟩

/-! ### Reset -/

/-- Settles O2: every item is a field of the reset state. -/
theorem resetRestoresEveryItem : Obligations.ResetRestoresEveryItem := fun _ =>
  ⟨fun _ => rfl, rfl, rfl, rfl, rfl, rfl, rfl, rfl⟩

/-! ### The snapshot -/

theorem getState_memory_getElem? (s : State) {a : Nat} (h : a < 256) :
    (getState s).memory[a]? = some (s.mem.read a) := by
  simp [getState, h]

theorem status_eq_halted_iff (s : State) : s.status = .halted ↔ s.halted = true := by
  unfold State.status
  cases s.halted <;> cases s.running <;> decide

theorem status_eq_running_iff (s : State) : s.status = .running ↔ s.halted = false ∧ s.running = true := by
  unfold State.status
  cases s.halted <;> cases s.running <;> decide

/-- Settles O52: the window and the status by the lemmas above; every other item is the field it shows. -/
theorem snapshotShowsState : Obligations.SnapshotShowsState := fun s =>
  ⟨rfl, rfl, rfl, rfl, by simp [getState], fun _ h => getState_memory_getElem? s h, rfl, rfl, rfl, fun _ => rfl,
    fun _ => rfl, status_eq_halted_iff s, status_eq_running_iff s, rfl⟩

end Sys2Proof.Machine
end

section
/-! The flags of a subtraction (42_arithmetic.md R112) and the signed meaning of OF (R120). -/

namespace Sys2Proof.Machine

/-! ### SUB -/

theorem toNat_sub_int (a b : Word) : ((a - b).toNat : Int) = ((a.toNat : Int) - b.toNat) % 65536 := by
  have hb := b.isLt
  rw [BitVec.toNat_sub]
  omega

theorem isZero_sub_iff (a b : Word) : isZero (a - b) = true ↔ a = b := by
  rw [isZero, beq_iff_eq, BitVec.sub_eq_iff_eq_add, BitVec.zero_add]

theorem signBit_sub_iff (a b : Word) : signBit (a - b) = true ↔ 32768 ≤ ((a.toNat : Int) - b.toNat) % 65536 := by
  rw [signBit, bit15_iff, ← toNat_sub_int]
  omega

theorem subFlags_of_iff (f : Flags) (a b : Word) :
    (subFlags f a b).of = true ↔ (a ^^^ b) &&& (a ^^^ (a - b)) &&& 0x8000#16 ≠ 0#16 :=
  bne_iff_ne

theorem subFlags_of_iff_bit15 (f : Flags) (a b : Word) :
    (subFlags f a b).of = true ↔ a.getLsbD 15 ≠ b.getLsbD 15 ∧ (a - b).getLsbD 15 ≠ a.getLsbD 15 := by
  rw [subFlags_of_iff, mask15_iff, BitVec.getLsbD_and, BitVec.getLsbD_xor, BitVec.getLsbD_xor]
  cases a.getLsbD 15 <;> cases b.getLsbD 15 <;> cases (a - b).getLsbD 15 <;> decide

/-- Settles O13: one lemma for each flag; the borrow is a negative difference of naturals. -/
theorem subtractionFlags : Obligations.SubtractionFlags := by
  intro f a b
  have hcf : (subFlags f a b).cf = true ↔ a.toNat < b.toNat := decide_eq_true_iff
  have hborrow : a.toNat < b.toNat ↔ (a.toNat : Int) - b.toNat < 0 := by omega
  exact ⟨hcf, hcf.trans hborrow, rfl, decide_eq_true_iff, isZero_sub_iff a b, signBit_sub_iff a b, subFlags_of_iff f a b,
    subFlags_of_iff_bit15 f a b, rfl, rfl, rfl⟩

/-! ### Signed overflow -/

/-- OF after an addition is the library's signed overflow. -/
theorem addFlags_of_eq (f : Flags) (a b : Word) : (addFlags f a b).of = a.saddOverflow b := by
  rw [Bool.eq_iff_iff, addFlags_of_iff_bit15, BitVec.saddOverflow_eq, BitVec.msb_eq_getLsbD_last,
    BitVec.msb_eq_getLsbD_last, BitVec.msb_eq_getLsbD_last]
  cases a.getLsbD 15 <;> cases b.getLsbD 15 <;> cases (a + b).getLsbD 15 <;> decide

/-- OF after a subtraction is the library's signed overflow. -/
theorem subFlags_of_eq (f : Flags) (a b : Word) : (subFlags f a b).of = a.ssubOverflow b := by
  rw [Bool.eq_iff_iff, subFlags_of_iff_bit15, BitVec.ssubOverflow_eq, BitVec.msb_eq_getLsbD_last,
    BitVec.msb_eq_getLsbD_last, BitVec.msb_eq_getLsbD_last]
  cases a.getLsbD 15 <;> cases b.getLsbD 15 <;> cases (a - b).getLsbD 15 <;> decide

/-- Settles O14: signed overflow is that the exact result is outside the signed range. -/
theorem overflowIsSignedOverflow : Obligations.OverflowIsSignedOverflow := by
  intro f a b
  rw [addFlags_of_eq, subFlags_of_eq]
  refine ⟨?_, ?_, subFlags_of_eq f a b⟩
  · simp only [BitVec.saddOverflow, Bool.or_eq_true, decide_eq_true_iff]
    omega
  · simp only [BitVec.ssubOverflow, Bool.or_eq_true, decide_eq_true_iff]
    omega

end Sys2Proof.Machine
end

section
/-! The results of the forms that reach memory, of CMP, MUL and DIV, and of JMP and JNZ (41_data_transfer.md R108, R109,
42_arithmetic.md R117 to R119, 43_control_transfer.md R121, R123). What each leaves unchanged is `execNext_writesOnlyTable`. -/

namespace Sys2Proof.Machine

/-! ### Loads and stores -/

theorem toNat_readDirect (s : State) (a : Nat) :
    (s.readDirect a).toNat = (s.mem.read (physAddr a)).toNat + 256 * (s.mem.read (physAddr (a + 1))).toNat := by
  have hlow := (s.mem.read (physAddr a)).isLt
  have hhigh := (s.mem.read (physAddr (a + 1))).isLt
  rw [State.readDirect, BitVec.toNat_ofNat, memRead_two]
  omega

/-- Settles O17: the instruction writes the two bytes to `d` (`exec_movRM`). -/
theorem movLoadReadsTwoBytes : Obligations.MovLoadReadsTwoBytes := by
  intro d a s
  obtain ⟨hgprs, hflags, hmem, hcontrol, htemp, hip⟩ := execNext_writesOnlyTable (.movRM d a) s
  refine ⟨_, exec_movRM d a s, ?_, hgprs, hflags, hmem, hcontrol, htemp rfl, hip rfl⟩
  rw [readGpr_writeGpr_same]
  exact toNat_readDirect s a

/-- Settles O18: the instruction is a 16-bit write (`exec_movMR`), whose bytes are those of `memWriteIsLittleEndian`. -/
theorem movStoreWritesTwoBytes : Obligations.MovStoreWritesTwoBytes := by
  intro a src s
  obtain ⟨hgprs, hflags, hmem, hcontrol, htemp, hip⟩ := execNext_writesOnlyTable (.movMR a src) s
  refine ⟨_, exec_movMR a src s, fun hwf => ?_, hmem, hgprs, hflags, hcontrol, htemp rfl, hip rfl⟩
  obtain ⟨hwf', hlow, hhigh, _⟩ := memWriteIsLittleEndian s.mem a (s.readGpr src).toNat hwf
  have hword := (s.readGpr src).isLt
  rw [State.writeDirect_mem]
  exact ⟨hlow, hhigh.trans (Nat.mod_eq_of_lt (by omega)), hwf'⟩

/-! ### CMP -/

theorem exec_cmpRR (p q : Gpr) (s : State) : exec (.cmpRR p q) s = .next (microCmpr p q s) := rfl

/-- A comparison sets its four flags as the subtraction does. -/
theorem cmpFlags_get_eq_subFlags_get (f : Flags) (a b : Word) {g : Flag} (h : g ∈ compareFlags) :
    (cmpFlags f a b).get g = (subFlags f a b).get g := by
  simp only [compareFlags, List.mem_cons, List.not_mem_nil, or_false] at h
  rcases h with rfl | rfl | rfl | rfl <;> rfl

/-- Settles O24: the flags are those of the subtraction (`subtractionFlags`). -/
theorem compareWritesFourFlags : Obligations.CompareWritesFourFlags := by
  intro p q s
  obtain ⟨hgprs, hflags, hmem, hcontrol, htemp, hip⟩ := execNext_writesOnlyTable (.cmpRR p q) s
  exact ⟨_, exec_cmpRR p q s, isZero_sub_iff _ _, signBit_sub_iff _ _, decide_eq_true_iff,
    fun _ hf => cmpFlags_get_eq_subFlags_get _ _ _ hf, hgprs, hflags, hmem, hcontrol, htemp rfl, hip rfl⟩

/-! ### MUL and DIV -/

theorem readGpr_ax_writeAxDx (s : State) (v w : Word) : ((s.writeGpr .ax v).writeGpr .dx w).readGpr .ax = v := by
  rw [readGpr_writeGpr_other _ _ _ _ (by decide), readGpr_writeGpr_same]

theorem exec_mulR (src : Gpr) (s : State) : exec (.mulR src) s = .next (microMul src s) := rfl

theorem microMul_dx (src : Gpr) (s : State) :
    (microMul src s).readGpr .dx = BitVec.ofNat 16 ((s.readGpr .ax).toNat * (s.readGpr src).toNat / 65536) :=
  readGpr_writeGpr_same (s.writeGpr .ax _) .dx _

theorem microMul_ax (src : Gpr) (s : State) :
    (microMul src s).readGpr .ax = BitVec.ofNat 16 ((s.readGpr .ax).toNat * (s.readGpr src).toNat) :=
  readGpr_ax_writeAxDx ..

/-- The product of two words fits DX:AX. -/
theorem microMul_exact (src : Gpr) (s : State) :
    ((microMul src s).readGpr .dx).toNat * 65536 + ((microMul src s).readGpr .ax).toNat =
      (s.readGpr .ax).toNat * (s.readGpr src).toNat := by
  have hfits : (s.readGpr .ax).toNat * (s.readGpr src).toNat < 65536 * 65536 :=
    Nat.mul_lt_mul'' (s.readGpr .ax).isLt (s.readGpr src).isLt
  rw [microMul_dx, microMul_ax, BitVec.toNat_ofNat, BitVec.toNat_ofNat]
  omega

theorem microMul_cf_iff (src : Gpr) (s : State) :
    (microMul src s).flags.cf = true ↔ (microMul src s).readGpr .dx ≠ 0#16 := by
  rw [microMul_dx]
  exact bne_iff_ne

/-- Settles O25: `microMul_exact`, and both flags test the high word. -/
theorem multiplyExactProduct : Obligations.MultiplyExactProduct := by
  intro src s
  obtain ⟨hgprs, hflags, hmem, hcontrol, htemp, hip⟩ := execNext_writesOnlyTable (.mulR src) s
  exact ⟨_, exec_mulR src s, microMul_exact src s, microMul_cf_iff src s, rfl, hgprs, hflags, hmem, hcontrol, htemp rfl,
    hip rfl⟩

/-- The quotient of `high : low` by a divisor above `high` fits 16 bits. -/
theorem quotient_lt {high low v : Nat} (hlow : low < 65536) (h : high < v) : (high * 65536 + low) / v < 65536 :=
  Nat.div_lt_of_lt_mul (by omega)

theorem exec_divR_of_ne {src : Gpr} {s : State} (h : s.readGpr src ≠ 0#16) :
    exec (.divR src) s = .next (execNext (.divR src) s) :=
  microDiv_nonzero src s h

theorem toNat_execNext_divR_ax (src : Gpr) (s : State) :
    ((execNext (.divR src) s).readGpr .ax).toNat =
      ((s.readGpr .dx).toNat * 65536 + (s.readGpr .ax).toNat) / (s.readGpr src).toNat % 65536 := by
  rw [execNext, readGpr_ax_writeAxDx, BitVec.toNat_ofNat, State.dividend]

/-- The remainder is below the divisor, so it fits DX. -/
theorem toNat_execNext_divR_dx {src : Gpr} {s : State} (h : s.readGpr src ≠ 0#16) :
    ((execNext (.divR src) s).readGpr .dx).toNat =
      ((s.readGpr .dx).toNat * 65536 + (s.readGpr .ax).toNat) % (s.readGpr src).toNat := by
  have hlt := Nat.mod_lt s.dividend (Nat.pos_of_ne_zero (toNat_ne_zero h))
  rw [execNext, readGpr_writeGpr_same, BitVec.toNat_ofNat, Nat.mod_eq_of_lt (hlt.trans (s.readGpr src).isLt),
    State.dividend]

/-- Settles O26: AX and DX by the two lemmas above; the division is exact where the quotient fits (`quotient_lt`). -/
theorem divideQuotientRemainder : Obligations.DivideQuotientRemainder := by
  intro src s h
  obtain ⟨hgprs, hflags, hmem, hcontrol, htemp, hip⟩ := execNext_writesOnlyTable (.divR src) s
  have hax := toNat_execNext_divR_ax src s
  have hdx := toNat_execNext_divR_dx h
  refine ⟨_, exec_divR_of_ne h, hax, hdx, ?_, fun hfits => ?_, hgprs, hflags, hmem, hcontrol, htemp rfl, hip rfl⟩
  · rw [hdx]
    exact Nat.mod_lt _ (Nat.pos_of_ne_zero (toNat_ne_zero h))
  · rw [hax, hdx, Nat.mod_eq_of_lt (quotient_lt (s.readGpr .ax).isLt hfits)]
    exact Nat.div_add_mod' _ _

/-- Settles O27: DIV by zero is `microDiv_zero`, and everything else an instruction can answer is in `exec_fault`. -/
theorem onlyDivByZeroFaults : Obligations.OnlyDivByZeroFaults :=
  ⟨fun src s h => microDiv_zero src s h, fun _ _ _ h => exec_fault h⟩

/-! ### JMP and JNZ -/

theorem exec_jmpH (tgt : Nat) (s : State) : exec (.jmpH tgt) s = .next { s with ip := ipw tgt } := rfl

theorem step_of_jmpH {tgt : Nat} {line : Text} {s : State} (hf : fetchLine s = some line)
    (hd : decode line = .jmpH tgt) : step s = .next { recordStep s line with ip := ipw (ipw tgt + 1) } := by
  have he := exec_jmpH tgt (recordStep s line)
  rw [← hd] at he
  exact step_of_exec_next hf he

/-- Settles O28: the instruction is a change of IP (`exec_jmpH`), and its step adds 1 (`step_of_jmpH`). -/
theorem jumpWritesTarget : Obligations.JumpWritesTarget := by
  refine ⟨fun tgt s => ?_, fun tgt line s hf hd => ⟨_, step_of_jmpH hf hd, rfl⟩⟩
  obtain ⟨hgprs, hflags, hmem, hcontrol, htemp⟩ := ip_update_frame s (ipw tgt)
  exact ⟨_, exec_jmpH tgt s, rfl, hgprs, hflags, hmem, hcontrol, htemp⟩

theorem exec_jnzH (tgt : Nat) (s : State) :
    exec (.jnzH tgt) s = .next { s with ip := if s.flags.zf then s.ip else ipw tgt } :=
  congrArg _ (microJnz_eq_ip_update tgt s)

/-- The step that runs JNZ adds 1 to the target or to the old IP. -/
theorem step_ip_of_jnzH {tgt : Nat} {line : Text} {s : State} (hf : fetchLine s = some line)
    (hd : decode line = .jnzH tgt) :
    ∃ t, step s = .next t ∧ t.ip = (if s.flags.zf then ipw (s.ip + 1) else ipw (ipw tgt + 1)) := by
  have he := exec_jnzH tgt (recordStep s line)
  rw [← hd] at he
  refine ⟨_, step_of_exec_next hf he, ?_⟩
  rw [advanceIp_ip, recordStep_flags, recordStep_ip]
  cases s.flags.zf with
  | true => rfl
  | false => rfl

/-- An instruction whose row does not list ZF keeps it. -/
theorem exec_zf_of_not_written {i : Instr} {s t : State} (hi : .zf ∉ flagsWritten i) (h : exec i s = .next t) :
    t.flags.zf = s.flags.zf :=
  let ⟨_, hflags, _⟩ := instructionWritesOnlyItsTable i s t h
  hflags .zf hi

/-- Settles O30: the instruction is a change of IP (`exec_jnzH`), its step is `step_ip_of_jnzH`, and no row of MOV, MUL or DIV
lists ZF. -/
theorem jumpIfNotZeroTestsZf : Obligations.JumpIfNotZeroTestsZf := by
  refine ⟨fun tgt s => ?_, fun _ _ _ hf hd => step_ip_of_jnzH hf hd, rfl, fun d s' n i hi s t h => ?_⟩
  · obtain ⟨hgprs, hflags, hmem, hcontrol, htemp⟩ := ip_update_frame s (if s.flags.zf then s.ip else ipw tgt)
    exact ⟨_, exec_jnzH tgt s, rfl, hgprs, hflags, hmem, hcontrol, htemp, rfl⟩
  · refine exec_zf_of_not_written ?_ h
    simp only [List.mem_cons, List.not_mem_nil, or_false] at hi
    rcases hi with rfl | rfl | rfl | rfl | rfl | rfl <;> simp [flagsWritten, productFlags]

/-! ### Placeholders among the micro-ops -/

/-- The query answers alike of every micro-op of an instruction: whether the instruction is a placeholder. -/
theorem isPlaceholder_of_mem_lower {i : Instr} {u : MicroOp} (h : u ∈ lower i) : u.isPlaceholder = !i.isCore := by
  cases i with
  | addRI d n =>
    simp only [lower, List.mem_cons, List.not_mem_nil, or_false] at h
    rcases h with rfl | rfl <;> rfl
  | subRI d n =>
    simp only [lower, List.mem_cons, List.not_mem_nil, or_false] at h
    rcases h with rfl | rfl <;> rfl
  | placeholder kind line =>
    obtain ⟨w, hw, hp⟩ := lower_placeholder kind line
    rw [hw, List.mem_singleton] at h
    rw [h, hp]
    rfl
  | _ =>
    rw [List.mem_singleton.1 h]
    rfl

theorem lower_ne_nil (i : Instr) : lower i ≠ [] := by
  cases i with
  | placeholder kind line => cases kind <;> exact List.cons_ne_nil _ _
  | _ => exact List.cons_ne_nil _ _

/-- Since there is a micro-op, what the query answers of all of them is what it answers of one. -/
theorem forall_lower_isPlaceholder_iff (i : Instr) (b : Bool) :
    (∀ u ∈ lower i, u.isPlaceholder = b) ↔ i.isCore = !b := by
  constructor
  · intro h
    obtain ⟨u, hu⟩ := List.exists_mem_of_ne_nil _ (lower_ne_nil i)
    rw [← h u hu, isPlaceholder_of_mem_lower hu, Bool.not_not]
  · intro h u hu
    rw [isPlaceholder_of_mem_lower hu, h, Bool.not_not]

/-- Settles O32: the query is a test of the tag, and `forall_lower_isPlaceholder_iff`. -/
theorem placeholderQueryTellsApart : Obligations.PlaceholderQueryTellsApart :=
  ⟨fun u => by simp [MicroOp.isPlaceholder], fun i => forall_lower_isPlaceholder_iff i true,
    fun i => forall_lower_isPlaceholder_iff i false⟩

end Sys2Proof.Machine
end

section
/-! What one step can have done, read from its result (40_sequencer.md R95, R102, 60_exceptions.md R129 to R134): halting, the one
fault, and what a fault leaves. -/

namespace Sys2Proof.Machine

/-! ### Inversion -/

/-- A step that goes on has halted, or has run its line and incremented. -/
theorem step_next {s t : State} (h : step s = .next t) :
    (fetchLine s = none ∧ t = haltStep s) ∨
      ∃ line, fetchLine s = some line ∧ t = advanceIp (execNext (decode line) (recordStep s line)) := by
  rcases step_cases s with ⟨hf, hs⟩ | ⟨line, hf, _, hs⟩ | ⟨_, _, _, _, _, hs⟩ <;> rw [hs] at h
  · exact .inl ⟨hf, (Host.Outcome.next.inj h).symm⟩
  · exact .inr ⟨line, hf, (Host.Outcome.next.inj h).symm⟩
  · cases h

/-- A step that faults stands at a DIV with a zero divisor. -/
theorem step_fault {s t : State} (h : step s = .fault (.divideByZero t)) :
    ∃ line src, fetchLine s = some line ∧ decode line = .divR src ∧ s.readGpr src = 0#16 ∧
      t = settleFault s (recordStep s line) := by
  rcases step_cases s with ⟨_, hs⟩ | ⟨_, _, _, hs⟩ | ⟨line, src, hf, hd, hz, hs⟩ <;> rw [hs] at h
  · cases h
  · cases h
  · exact ⟨line, src, hf, hd, hz, (Fault.divideByZero.inj (Host.Outcome.fault.inj h)).symm⟩

/-- Settles O39: the three cases of a step. -/
theorem stepAnswersNextOrDivFault : Obligations.StepAnswersNextOrDivFault := by
  intro s
  rcases step_cases s with ⟨_, hs⟩ | ⟨_, _, _, hs⟩ | ⟨line, src, hf, hd, hz, hs⟩
  · exact .inl ⟨_, hs⟩
  · exact .inl ⟨_, hs⟩
  · obtain ⟨hh, hl⟩ := (fetchLine_eq_some_iff s line).1 hf
    exact .inr ⟨_, line, src, hs, hh, hl, hd, hz⟩

/-! ### Halting -/

theorem haltStep_of_halted {s : State} (h : s.halted = true) : haltStep s = s := by
  rw [haltStep, ← h]

theorem step_of_halted {s : State} (h : s.halted = true) : step s = .next s := by
  rw [step_of_fetch_none ((fetchLine_eq_none_iff s).2 (.inl h)), haltStep_of_halted h]

theorem execNext_halted (i : Instr) (s : State) : (execNext i s).halted = s.halted :=
  let ⟨_, _, _, ⟨_, _, _, hhalted, _⟩, _⟩ := execNext_writesOnlyTable i s
  hhalted

/-- Halting is what a step with no line does, and no other. -/
theorem step_next_halted_iff {s t : State} (h : step s = .next t) :
    t.halted = true ↔ s.halted = true ∨ s.lines.length ≤ s.ip := by
  rw [← fetchLine_eq_none_iff]
  rcases step_next h with ⟨hf, rfl⟩ | ⟨line, hf, rfl⟩
  · simp [hf]
  · have hh := ((fetchLine_eq_some_iff s line).1 hf).1
    simp [hf, execNext_halted, hh]

/-- Of the operations on a halted engine only `reset` and `load` clear `halted`. -/
theorem hostOp_halted {op : HostOp} {r : HostReply} {s t : State} (h : hostOp op s = some (r, t))
    (hs : s.halted = true) : t.halted = false ↔ op = .reset ∨ ∃ code, op = .load code := by
  have hf : fetchLine s = none := (fetchLine_eq_none_iff s).2 (.inl hs)
  cases op with
  | reset =>
    cases h
    exact ⟨fun _ => .inl rfl, fun _ => rfl⟩
  | load code =>
    cases h
    exact ⟨fun _ => .inr ⟨code, rfl⟩, fun _ => rfl⟩
  | step =>
    cases h
    rw [hostStep_of_fetch_none hf]
    simp
  | run fuel =>
    obtain ⟨⟨reply, u⟩, hrun, hu⟩ := Option.map_eq_some_iff.1 h
    cases hu
    rw [hostRun_of_fetch_none hf hrun]
    simp
  | getState =>
    cases h
    simp [hs]

/-- Settles O38: one lemma for each clause; a change of `halted` commutes with every instruction (`execNext_setHalted`). -/
theorem haltedIsTerminal : Obligations.HaltedIsTerminal := by
  refine ⟨fun s t h => step_next_halted_iff h, fun s t h => ?_, fun s h => step_of_halted h,
    fun op r s t h hs => hostOp_halted h hs, fun i s b => ?_⟩
  · obtain ⟨line, _, hf, _, _, rfl⟩ := step_fault h
    exact ⟨rfl, ((fetchLine_eq_some_iff s line).1 hf).1⟩
  · exact exec_map (f := fun t => { t with halted := b }) (fun _ => rfl) (execNext_setHalted i s b)

/-! ### The fault -/

/-- Settles O40: the state after a fault is `settleFault s (recordStep s line)`, which differs from `s` only in the two fields of
the draw and in the model's own draw count. -/
theorem faultLeavesStateUnchanged : Obligations.FaultLeavesStateUnchanged := by
  intro s t h
  have hrequest : hostRequest .step s = some (.stepped (.fault .divideByZero (errorMessage t)), getState t, t) := by
    rw [hostRequest, hostOp, hostStep_of_fault h, Option.map_some]
  obtain ⟨line, _, hf, _, _, rfl⟩ := step_fault h
  exact ⟨rfl, rfl, rfl, rfl, rfl, rfl, rfl, rfl, rfl, rfl, line, ((fetchLine_eq_some_iff s line).1 hf).2,
    settleFault_currentInstruction s _, settleFault_lastMicroinstructions s _, _, hrequest⟩

theorem step_of_divR_zero {s : State} {line : Text} {src : Gpr} (hf : fetchLine s = some line)
    (hd : decode line = .divR src) (hz : s.readGpr src = 0#16) :
    step s = .fault (.divideByZero (settleFault s (recordStep s line))) := by
  have he := microDiv_zero src (recordStep s line) hz
  exact step_of_exec_fault hf (by rw [hd]; exact he)

/-- What a fault leaves stands at the same DIV with the same registers, so it faults again. -/
theorem exists_step_fault_again {s t : State} (h : step s = .fault (.divideByZero t)) :
    ∃ u, step t = .fault (.divideByZero u) ∧ u.ip = s.ip ∧ u.gprs = s.gprs ∧ u.flags = s.flags ∧ u.mem = s.mem := by
  have hagain : ∃ u, step t = .fault (.divideByZero u) := by
    obtain ⟨line, src, hf, hd, hz, rfl⟩ := step_fault h
    exact ⟨_, step_of_divR_zero (s := settleFault s (recordStep s line)) hf hd hz⟩
  obtain ⟨u, hu⟩ := hagain
  obtain ⟨hgprs, _, hip, _, hflags, hmem, _⟩ := faultLeavesStateUnchanged s t h
  obtain ⟨hgprs', _, hip', _, hflags', hmem', _⟩ := faultLeavesStateUnchanged t u hu
  exact ⟨u, hu, hip'.trans hip, hgprs'.trans hgprs, hflags'.trans hflags, hmem'.trans hmem⟩

/-- Settles O41: `exists_step_fault_again`, whose fault also ends the first round of `run()`, since no step reads `running`. -/
theorem faultRepeatsForever : Obligations.FaultRepeatsForever := by
  intro s t h
  obtain ⟨u, hu, hip, hgprs, hflags, hmem⟩ := exists_step_fault_again h
  refine ⟨⟨u, hu, hip, hgprs, hflags, hmem⟩, fun fuel => ?_⟩
  have hrun : step { t with running := true } = .fault (.divideByZero { u with running := true }) := by
    rw [(unread_running true).step t, hu, mapResult_fault]
  exact ⟨_, _, runLoop_succ_of_fault fuel rfl (hostStep_of_fault hrun), hip, hgprs⟩

end Sys2Proof.Machine
end

section
/-! Runs of steps (40_sequencer.md R100, R101, R105, 43_control_transfer.md R121): ZF along a run, the line that jumps to itself,
and `run()` as the iteration of `step()`. -/

namespace Sys2Proof.Machine

/-! ### Iterated steps -/

theorem okSteps_succ_iff {k : Nat} {s t : State} :
    okSteps (k + 1) s = some t ↔ ∃ u, hostStep s = (.ok true, u) ∧ okSteps k u = some t := by
  rw [okSteps]
  split
  next u h => simp [h]
  next h =>
    refine ⟨nofun, ?_⟩
    rintro ⟨u, hu, _⟩
    exact absurd hu (h u)

/-- Steps after steps. -/
theorem okSteps_add (j k : Nat) (s : State) : okSteps (j + k) s = (okSteps j s).bind (okSteps k) := by
  induction j generalizing s with
  | zero => rw [Nat.zero_add, okSteps_zero, Option.bind_some]
  | succ j ih =>
    rw [Nat.add_right_comm, okSteps, okSteps]
    split
    next u h => exact ih u
    next => rfl

/-- Settles O35: by induction on the steps, each of which runs a line of the program, whose row does not list ZF. -/
theorem zeroFlagSurvivesOtherInstructions : Obligations.ZeroFlagSurvivesOtherInstructions := by
  intro k
  induction k with
  | zero =>
    intro s t _ h
    cases h
    rfl
  | succ k ih =>
    intro s t hlines h
    obtain ⟨u, hu, hk⟩ := okSteps_succ_iff.1 h
    obtain ⟨hstore, _⟩ := hostStep_store s
    obtain ⟨line, hf, hstep⟩ := hostStep_ok hu
    obtain ⟨_, hflags, _⟩ := execNext_writesOnlyTable (decode line) (recordStep s line)
    rw [hu] at hstore
    have hzf : u.flags.zf = s.flags.zf := by
      rw [hstep]
      exact hflags .zf (hlines line (fetchLine_mem hf))
    rw [ih u t (fun l hl => hlines l (hstore ▸ hl)) hk, hzf]

/-! ### The line that jumps to itself -/

/-- The engine stands at line `k + 1`, an index that IP can hold, and the line is `JMP k`. -/
structure TightLoop (s : State) (line : Text) (k : Nat) : Prop where
  halted : s.halted = false
  ip : s.ip = k + 1
  range : Config.ipWrap16 = true → k + 1 < 65536
  fetched : s.lines[k + 1]? = some line
  decoded : decode line = .jmpH k

theorem ipw_ipw_succ {k : Nat} (h : Config.ipWrap16 = true → k + 1 < 65536) : ipw (ipw k + 1) = k + 1 := by
  cases hw : Config.ipWrap16 with
  | false => simp [ipw_eq, hw]
  | true =>
    have hk := h hw
    rw [ipw_of_lt k (by omega), ipw_of_lt _ hk]

/-- The step only records: the target plus 1 is where IP was. -/
theorem TightLoop.hostStep {s : State} {line : Text} {k : Nat} (h : TightLoop s line k) :
    hostStep s = (.ok true, recordStep s line) := by
  have hf : fetchLine s = some line := (fetchLine_eq_some_iff s line).2 ⟨h.halted, h.ip ▸ h.fetched⟩
  have hstep := step_of_jmpH hf h.decoded
  rw [ipw_ipw_succ h.range, ← h.ip] at hstep
  exact hostStep_of_step_next hf hstep

theorem TightLoop.recordStep {s : State} {line : Text} {k : Nat} (h : TightLoop s line k) :
    TightLoop (recordStep s line) line k := ⟨h.halted, h.ip, h.range, h.fetched, h.decoded⟩

theorem TightLoop.okSteps {s : State} {line : Text} {k : Nat} (h : TightLoop s line k) (n : Nat) :
    okSteps (n + 1) s = some (Machine.recordStep s line) := by
  induction n generalizing s with
  | zero => rw [okSteps_succ_of_ok h.hostStep, okSteps_zero]
  | succ n ih =>
    rw [okSteps_succ_of_ok h.hostStep, ih h.recordStep]
    rfl

/-- Settles O47: `TightLoop.okSteps`, where the record is the line and its one micro-op. -/
theorem jumpBackLoopsInPlace : Obligations.JumpBackLoopsInPlace := by
  intro s line k hhalted hip hrange hline hdecode n
  have h : TightLoop s line k := ⟨hhalted, hip, hrange, hline, hdecode⟩
  rw [h.okSteps n, recordStep, hdecode, lower]

theorem TightLoop.runLoop {s : State} {line : Text} {k : Nat} (h : TightLoop s line k) (hr : s.running = true)
    (fuel : Nat) : runLoop fuel s = none := by
  induction fuel generalizing s with
  | zero => rfl
  | succ fuel ih =>
    rw [runLoop_succ_of_ok fuel hr h.hostStep]
    exact ih h.recordStep hr

/-- Settles O48: by induction on the fuel, since `running` is not read by the step. -/
theorem runOfTightLoopNeverReturns : Obligations.RunOfTightLoopNeverReturns := by
  intro s line k hhalted hip hrange hline hdecode fuel
  have h : TightLoop { s with running := true } line k := ⟨hhalted, hip, hrange, hline, hdecode⟩
  exact h.runLoop rfl fuel

/-! ### `run()` as iterated steps -/

/-- How `run()` ends with what a step answered; none where the loop goes on. -/
def runEnd : StepReply × State → Option (RunReply × State)
  | (.ok true, _) => none
  | (.ok false, t) => some (.done, { t with running := false })
  | (.fault kind message, t) => some (.fault kind message, freeRunning t)
  | (.stopped why, t) => some (.stopped why, t)

theorem runEnd_eq_none_iff (e : StepReply × State) : runEnd e = none ↔ e.1 = .ok true := by
  match e with
  | (.ok true, _) => simp [runEnd]
  | (.ok false, _) => simp [runEnd]
  | (.fault _ _, _) => simp [runEnd]
  | (.stopped _, _) => simp [runEnd]

theorem runLoop_succ (fuel : Nat) {s : State} (hr : s.running = true) :
    runLoop (fuel + 1) s = (runEnd (hostStep s)).or (runLoop fuel (hostStep s).2) := by
  rw [runLoop, if_pos hr]
  match hostStep s with
  | (.ok true, _) => rfl
  | (.ok false, _) => rfl
  | (.fault _ _, _) => rfl
  | (.stopped _, _) => rfl

theorem okSteps_succ_of_runEnd {s : State} {e : RunReply × State} (h : runEnd (hostStep s) = some e) (k : Nat) :
    okSteps (k + 1) s = none := by
  rw [← Option.not_isSome_iff_eq_none, Option.isSome_iff_exists]
  rintro ⟨t, ht⟩
  obtain ⟨u, hu, _⟩ := okSteps_succ_iff.1 ht
  rw [(runEnd_eq_none_iff _).2 (congrArg Prod.fst hu)] at h
  cases h

/-- The loop returns exactly where some steps that each return `Ok(true)` lead to one that does not. -/
theorem runLoop_eq_some_iff {fuel : Nat} {s : State} {e : RunReply × State} (hr : s.running = true) :
    runLoop fuel s = some e ↔ ∃ k u, k < fuel ∧ okSteps k s = some u ∧ runEnd (hostStep u) = some e := by
  induction fuel generalizing s with
  | zero => simp [runLoop]
  | succ fuel ih =>
    rw [runLoop_succ fuel hr]
    cases hend : runEnd (hostStep s) with
    | some e' =>
      rw [Option.some_or]
      constructor
      · intro h
        exact ⟨0, s, Nat.succ_pos fuel, rfl, hend.trans h⟩
      · rintro ⟨k, u, _, hk, hu⟩
        cases k with
        | zero =>
          cases hk
          exact hend.symm.trans hu
        | succ k =>
          rw [okSteps_succ_of_runEnd hend k] at hk
          cases hk
    | none =>
      have hok : hostStep s = (.ok true, (hostStep s).2) := Prod.ext ((runEnd_eq_none_iff _).1 hend) rfl
      obtain ⟨_, _, hrunning⟩ := hostStep_store s
      rw [Option.none_or, ih (hrunning.trans hr)]
      constructor
      · rintro ⟨k, u, hlt, hk, hu⟩
        exact ⟨k + 1, u, Nat.succ_lt_succ hlt, (okSteps_succ_of_ok hok k).trans hk, hu⟩
      · rintro ⟨k, u, hlt, hk, hu⟩
        cases k with
        | zero =>
          cases hk
          rw [hend] at hu
          cases hu
        | succ k => exact ⟨k, u, Nat.lt_of_succ_lt_succ hlt, (okSteps_succ_of_ok hok k).symm.trans hk, hu⟩

theorem hostRun_eq_some_iff {fuel : Nat} {s : State} {e : RunReply × State} :
    hostRun fuel s = some e ↔
      ∃ k u, k < fuel ∧ okSteps k { s with running := true } = some u ∧ runEnd (hostStep u) = some e :=
  runLoop_eq_some_iff rfl

theorem runEnd_done_iff {u t : State} :
    runEnd (hostStep u) = some (.done, t) ↔ fetchLine u = none ∧ t = { u with halted := true, running := false } := by
  rcases hostStep_cases u with ⟨line, hf, _, hs⟩ | ⟨hf, hs⟩ | ⟨line, _, hf, _, _, _, hs⟩ <;> rw [hs]
  · simp [runEnd, hf]
  · simp [runEnd, hf, haltStep, eq_comm]
  · simp [runEnd, hf]

/-- Settles O49: `hostRun_eq_some_iff`, where Done is the end at a state with no line to execute. -/
theorem runIsIteratedStep : Obligations.RunIsIteratedStep := by
  intro fuel s t
  simp only [hostRun_eq_some_iff, runEnd_done_iff]

theorem runEnd_fault {u t : State} {kind : FaultKind} {message : Text}
    (h : runEnd (hostStep u) = some (.fault kind message, t)) :
    ∃ v, step u = .fault (.divideByZero v) ∧ t = freeRunning v := by
  rcases hostStep_cases u with ⟨_, _, _, hs⟩ | ⟨_, hs⟩ | ⟨_, _, _, _, _, hstep, hs⟩ <;> rw [hs] at h <;> cases h
  exact ⟨_, hstep, rfl⟩

/-- Settles O50: `hostRun_eq_some_iff`, where the end is a fault of the step (`step_fault`). -/
theorem runFaultStandsAtDiv : Obligations.RunFaultStandsAtDiv := by
  intro fuel s t kind message h
  obtain ⟨k, u, hlt, hk, hend⟩ := hostRun_eq_some_iff.1 h
  obtain ⟨v, hstep, rfl⟩ := runEnd_fault hend
  obtain ⟨line, src, hf, hd, hz, rfl⟩ := step_fault hstep
  obtain ⟨hhalted, hline⟩ := (fetchLine_eq_some_iff u line).1 hf
  exact ⟨k, u, _, hlt, hk, hstep, hhalted, rfl, rfl, rfl, line, src, hline, hd, hz⟩

/-! ### The three ways an execution ends (R105) -/

/-- Some steps that each return `Ok(true)` lead to a step whose reply meets `p`. -/
def Reaches (p : StepReply → Prop) (s : State) : Prop := ∃ k u, okSteps k s = some u ∧ p (hostStep u).1

theorem Reaches.mono {p q : StepReply → Prop} {s : State} (h : Reaches p s) (hpq : ∀ r, p r → q r) : Reaches q s :=
  let ⟨k, u, hk, hu⟩ := h
  ⟨k, u, hk, hpq _ hu⟩

theorem completes_iff_reaches (s : State) : Completes s ↔ Reaches (fun r => r = .ok false) s :=
  ⟨fun ⟨k, u, _, hk, hu⟩ => ⟨k, u, hk, congrArg Prod.fst hu⟩,
    fun ⟨k, u, hk, hu⟩ => ⟨k, u, (hostStep u).2, hk, Prod.ext hu rfl⟩⟩

theorem faults_iff_reaches (s : State) : Faults s ↔ Reaches (fun r => ∃ message, r = .fault .divideByZero message) s :=
  ⟨fun ⟨k, u, message, _, hk, hu⟩ => ⟨k, u, hk, message, congrArg Prod.fst hu⟩,
    fun ⟨k, u, hk, message, hu⟩ => ⟨k, u, message, (hostStep u).2, hk, Prod.ext hu rfl⟩⟩

/-- An execution goes on for ever exactly when no step of it returns anything but `Ok(true)`. -/
theorem diverges_iff_not_reaches (s : State) : Diverges s ↔ ¬Reaches (fun r => r ≠ .ok true) s := by
  constructor
  · rintro h ⟨k, u, hk, hu⟩
    obtain ⟨t, ht⟩ := h (k + 1)
    rw [okSteps_add, hk, Option.bind_some] at ht
    obtain ⟨v, hv, _⟩ := okSteps_succ_iff.1 ht
    exact hu (congrArg Prod.fst hv)
  · intro h k
    induction k with
    | zero => exact ⟨s, rfl⟩
    | succ k ih =>
      obtain ⟨u, hk⟩ := ih
      have hok : (hostStep u).1 = .ok true := by
        by_contra hne
        exact h ⟨k, u, hk, hne⟩
      refine ⟨(hostStep u).2, ?_⟩
      rw [okSteps_add, hk, Option.bind_some, okSteps_succ_of_ok (Prod.ext hok rfl), okSteps_zero]

/-- A step's reply that is not `Ok(true)` is `Ok(false)` or the fault. -/
theorem hostStep_reply_of_ne_ok {s : State} (h : (hostStep s).1 ≠ .ok true) :
    (hostStep s).1 = .ok false ∨ ∃ message, (hostStep s).1 = .fault .divideByZero message := by
  rcases hostStep_cases s with ⟨_, _, _, hs⟩ | ⟨_, hs⟩ | ⟨_, _, _, _, _, _, hs⟩ <;> rw [hs] at h ⊢
  · exact absurd rfl h
  · exact .inl rfl
  · exact .inr ⟨_, rfl⟩

/-- An execution has at most one end. -/
theorem Reaches.unique {p q : StepReply → Prop} {s : State} (hp : Reaches p s) (hq : Reaches q s)
    (hp' : ∀ r, p r → r ≠ .ok true) (hq' : ∀ r, q r → r ≠ .ok true) : ∃ r, p r ∧ q r := by
  obtain ⟨j, u, hj, hu⟩ := hp
  obtain ⟨k, v, hk, hv⟩ := hq
  induction j generalizing s k with
  | zero =>
    cases hj
    cases k with
    | zero =>
      cases hk
      exact ⟨_, hu, hv⟩
    | succ k =>
      obtain ⟨t, ht, _⟩ := okSteps_succ_iff.1 hk
      exact absurd (congrArg Prod.fst ht) (hp' _ hu)
  | succ j ih =>
    obtain ⟨t, ht, hj⟩ := okSteps_succ_iff.1 hj
    cases k with
    | zero =>
      cases hk
      exact absurd (congrArg Prod.fst ht) (hq' _ hv)
    | succ k =>
      rw [okSteps_succ_of_ok ht] at hk
      exact ih hj k hk

/-! ### `running` is not observed by the steps -/

theorem hostStep_setRunning (s : State) (b : Bool) :
    hostStep { s with running := b } = ((hostStep s).1, { (hostStep s).2 with running := b }) := by
  have h := (unread_running b).step s
  rcases step_cases s with ⟨hf, hs⟩ | ⟨line, hf, _, hs⟩ | ⟨_, _, _, _, _, hs⟩ <;> rw [hs] at h
  · rw [hostStep_of_fetch_none hf, hostStep_of_fetch_none (s := { s with running := b }) hf]
    rfl
  · rw [hostStep_of_step_next hf hs, hostStep_of_step_next (s := { s with running := b }) hf h]
  · rw [hostStep_of_fault hs, hostStep_of_fault h]
    rfl

theorem okSteps_setRunning (k : Nat) (s : State) (b : Bool) :
    okSteps k { s with running := b } = (okSteps k s).map (fun t => { t with running := b }) := by
  induction k generalizing s with
  | zero => rfl
  | succ k ih =>
    rw [okSteps, okSteps, hostStep_setRunning]
    match hostStep s with
    | (.ok true, t) => exact ih t
    | (.ok false, _) => rfl
    | (.fault _ _, _) => rfl
    | (.stopped _, _) => rfl

theorem reaches_setRunning (p : StepReply → Prop) (s : State) (b : Bool) :
    Reaches p { s with running := b } ↔ Reaches p s := by
  simp [Reaches, okSteps_setRunning, hostStep_setRunning]

/-! ### The replies of `run()` -/

/-- What `run()` returns after a step's reply; none where the loop goes on. -/
def runReply : StepReply → Option RunReply
  | .ok true => none
  | .ok false => some .done
  | .fault kind message => some (.fault kind message)
  | .stopped why => some (.stopped why)

theorem runEnd_map_fst (e : StepReply × State) : (runEnd e).map Prod.fst = runReply e.1 := by
  match e with
  | (.ok true, _) => rfl
  | (.ok false, _) => rfl
  | (.fault _ _, _) => rfl
  | (.stopped _, _) => rfl

theorem runReply_eq_none_iff (r : StepReply) : runReply r = none ↔ r = .ok true := by
  rcases r with (_ | _) | ⟨_, _⟩ | _ <;> simp [runReply]

theorem runReply_eq_done_iff (r : StepReply) : runReply r = some .done ↔ r = .ok false := by
  rcases r with (_ | _) | ⟨_, _⟩ | _ <;> simp [runReply]

theorem runReply_eq_fault_iff (r : StepReply) (kind : FaultKind) (message : Text) :
    runReply r = some (.fault kind message) ↔ r = .fault kind message := by
  rcases r with (_ | _) | ⟨_, _⟩ | _ <;> simp [runReply]

/-- `run()` returns, with enough fuel, what the reply at the execution's end makes of it. -/
theorem exists_hostRun_iff_reaches (s : State) (r : RunReply) :
    (∃ fuel t, hostRun fuel s = some (r, t)) ↔ Reaches (fun reply => runReply reply = some r) s := by
  rw [← reaches_setRunning _ s true]
  constructor
  · rintro ⟨fuel, t, h⟩
    obtain ⟨k, u, _, hk, hend⟩ := hostRun_eq_some_iff.1 h
    exact ⟨k, u, hk, (runEnd_map_fst _).symm.trans (congrArg (Option.map Prod.fst) hend)⟩
  · rintro ⟨k, u, hk, hu⟩
    obtain ⟨⟨r', t⟩, hend, rfl⟩ := Option.map_eq_some_iff.1 ((runEnd_map_fst (hostStep u)).trans hu)
    exact ⟨k + 1, t, hostRun_eq_some_iff.2 ⟨k, u, Nat.lt_succ_self k, hk, hend⟩⟩

theorem completes_iff_hostRun (s : State) : Completes s ↔ ∃ fuel t, hostRun fuel s = some (.done, t) := by
  simp only [completes_iff_reaches, exists_hostRun_iff_reaches, runReply_eq_done_iff]

theorem faults_iff_hostRun (s : State) :
    Faults s ↔ ∃ fuel message t, hostRun fuel s = some (.fault .divideByZero message, t) := by
  have hrun (message : Text) := exists_hostRun_iff_reaches s (.fault .divideByZero message)
  simp only [runReply_eq_fault_iff] at hrun
  rw [faults_iff_reaches]
  constructor
  · rintro ⟨k, u, hk, message, hu⟩
    obtain ⟨fuel, t, h⟩ := (hrun message).2 ⟨k, u, hk, hu⟩
    exact ⟨fuel, message, t, h⟩
  · rintro ⟨fuel, message, t, h⟩
    exact ((hrun message).1 ⟨fuel, t, h⟩).mono fun _ hr => ⟨message, hr⟩

theorem diverges_iff_hostRun (s : State) : Diverges s ↔ ∀ fuel, hostRun fuel s = none := by
  rw [diverges_iff_not_reaches]
  constructor
  · intro h fuel
    by_contra hne
    obtain ⟨⟨r, t⟩, hrun⟩ := Option.ne_none_iff_exists'.1 hne
    refine h (((exists_hostRun_iff_reaches s r).1 ⟨fuel, t, hrun⟩).mono fun reply hreply hok => ?_)
    rw [(runReply_eq_none_iff reply).2 hok] at hreply
    cases hreply
  · rintro h ⟨k, u, hk, hu⟩
    obtain ⟨r, hr⟩ := Option.ne_none_iff_exists'.1 (mt (runReply_eq_none_iff _).1 hu)
    obtain ⟨fuel, t, hrun⟩ := (exists_hostRun_iff_reaches s r).2 ⟨k, u, hk, hr⟩
    rw [h fuel] at hrun
    cases hrun

/-! ### The three ways -/

theorem completes_or_faults_or_diverges (s : State) : Completes s ∨ Faults s ∨ Diverges s := by
  by_cases h : Reaches (fun r => r ≠ .ok true) s
  · obtain ⟨k, u, hk, hu⟩ := h
    rcases hostStep_reply_of_ne_ok hu with hr | hr
    · exact .inl ((completes_iff_reaches s).2 ⟨k, u, hk, hr⟩)
    · exact .inr (.inl ((faults_iff_reaches s).2 ⟨k, u, hk, hr⟩))
  · exact .inr (.inr ((diverges_iff_not_reaches s).2 h))

theorem not_completes_and_faults (s : State) : ¬(Completes s ∧ Faults s) := by
  rintro ⟨hc, hf⟩
  obtain ⟨r, rfl, message, hr⟩ := ((completes_iff_reaches s).1 hc).unique ((faults_iff_reaches s).1 hf)
    (by rintro _ rfl; simp) (by rintro _ ⟨_, rfl⟩; simp)
  cases hr

theorem not_completes_and_diverges (s : State) : ¬(Completes s ∧ Diverges s) := fun ⟨hc, hd⟩ =>
  (diverges_iff_not_reaches s).1 hd (((completes_iff_reaches s).1 hc).mono (by rintro _ rfl; simp))

theorem not_faults_and_diverges (s : State) : ¬(Faults s ∧ Diverges s) := fun ⟨hf, hd⟩ =>
  (diverges_iff_not_reaches s).1 hd (((faults_iff_reaches s).1 hf).mono (by rintro _ ⟨_, rfl⟩; simp))

/-- A completed execution stays where it is. -/
theorem hostStep_of_ok_false {s t : State} (h : hostStep s = (.ok false, t)) :
    t.halted = true ∧ hostStep t = (.ok false, t) := by
  rcases hostStep_cases s with ⟨_, _, _, hs⟩ | ⟨_, hs⟩ | ⟨_, _, _, _, _, _, hs⟩ <;> rw [hs] at h <;> cases h
  have hf : fetchLine (haltStep s) = none := (fetchLine_eq_none_iff _).2 (.inl rfl)
  exact ⟨rfl, hostStep_of_fetch_none hf⟩

/-- A faulted execution faults again on the same line. -/
theorem hostStep_of_fault_reply {s t : State} {message : Text} (h : hostStep s = (.fault .divideByZero message, t)) :
    t.ip = s.ip ∧ ∃ message' u, hostStep t = (.fault .divideByZero message', u) := by
  rcases hostStep_cases s with ⟨_, _, _, hs⟩ | ⟨_, hs⟩ | ⟨_, _, _, _, _, hstep, hs⟩ <;> rw [hs] at h <;> cases h
  obtain ⟨u, hu, _⟩ := exists_step_fault_again hstep
  exact ⟨rfl, _, u, hostStep_of_fault hu⟩

/-- Settles O51: one lemma for each clause; the ends of `run()` are the ends of the execution (`exists_hostRun_iff_reaches`). -/
theorem executionEndsInOneOfThreeWays : Obligations.ExecutionEndsInOneOfThreeWays := fun s =>
  ⟨completes_or_faults_or_diverges s, not_completes_and_faults s, not_completes_and_diverges s, not_faults_and_diverges s,
    fun _ h => hostStep_of_ok_false h, fun _ _ h => hostStep_of_fault_reply h, completes_iff_hostRun s,
    faults_iff_hostRun s, diverges_iff_hostRun s⟩

end Sys2Proof.Machine
end
